-- ==== Sys2Proof/Word.lean ====
section
/-! DEFINITION. The word types of the block: what the host port moves (20_memory.md R50, R52) and what PK holds. -/

namespace Sys2Proof

/-- One byte: an element of PK, a header wire byte, the data of an 8-bit access. -/
abbrev Byte := BitVec 8

/-- One 32-bit word: a command word (R70), the data of a 32-bit access (R52), a float32 pattern (R45). -/
abbrev Word := BitVec 32

/-- A host address `A[6:0]` of the 128-byte host window (R50). -/
abbrev Addr := BitVec 7

end Sys2Proof
end

