-- ==== Sys2Proof/Syntax.lean ====
section
/-! DEFINITION. The commands of the block: one constructor for each row of spec/opcode_table.json (30_encoding.md R74). -/

namespace Sys2Proof

/-- A command. The only operand field of a command word is OFF, an absolute byte offset into PK (R72); every other
operand is a register named in the command's rule. -/
inductive Instr where
  /-- NOP (R140): clears STATUS. -/
  | nop
  /-- HENC (R114): HB from HDR. -/
  | henc
  /-- HDEC (R115): HDR from HB. -/
  | hdec
  /-- F32ENC (R101): store FV at `PK[off .. off+3]`. -/
  | f32enc (off : Nat)
  /-- F32DEC (R102): load FV from `PK[off .. off+3]`. -/
  | f32dec (off : Nat)
  /-- U16ENC (R103): store `FV[15:0]` at `PK[off .. off+1]`. -/
  | u16enc (off : Nat)
  /-- U16DEC (R104): load FV, zero-extended, from `PK[off .. off+1]`. -/
  | u16dec (off : Nat)
  /-- PLDENC (R123): the commander payload into `PK[0..13]`. -/
  | pldenc
  /-- PLDDEC (R124): the commander payload from `PK[0..13]`. -/
  | plddec
  /-- PKTENC (R131): the packet's wire bytes into PK. -/
  | pktenc
  /-- PKTDEC (R132): the packet from the wire bytes in PK. -/
  | pktdec
  deriving DecidableEq, Repr

end Sys2Proof
end

