-- ==== Sys2Proof/WellFormed.lean ====
section
/-! DEFINITION. Which commands have a word: "`off` must be from 0 to 31; an assembler refuses any other value"
(30_encoding.md R77). -/

namespace Sys2Proof

/-- An offset that the 5-bit OFF field can hold (R72, R77). -/
def offWf (off : Nat) : Bool := decide (off < 32)

/-- A command that some command word stands for. -/
def Instr.wf : Instr → Bool
  | .nop => true
  | .henc => true
  | .hdec => true
  | .f32enc off => offWf off
  | .f32dec off => offWf off
  | .u16enc off => offWf off
  | .u16dec off => offWf off
  | .pldenc => true
  | .plddec => true
  | .pktenc => true
  | .pktdec => true

end Sys2Proof
end

