-- ==== Sys2Proof/Decode.lean ====
section
/-! DEFINITION. The decode function (30_encoding.md R75), total on every 32-bit word; the encoder (R77); the opcode map as
rows of match and mask (R74); and the numbering of spec/opcode_table.json (decodeTableWord). -/

namespace Sys2Proof

/-- Why a word selects no command (R76; the split into three is the model's own, log entry 14). All three raise the same
IllegalCommand (R154). -/
inductive Illegal where
  /-- A 1 in bits 31:13 or 7:4. -/
  | reservedBits
  /-- A command without an offset, with OFF not 0. -/
  | offNotZero
  /-- OP from 0xB to 0xF. -/
  | noSuchOp
  deriving DecidableEq, Repr

/-- R71: OP is `word[3:0]`. -/
def opField (word : Word) : BitVec 4 := word.extractLsb' 0 4

/-- R72: OFF is `word[12:8]`, zero-extended: a number from 0 to 31. -/
def offField (word : Word) : Nat := (word.extractLsb' 8 5).toNat

/-- R70: bits 31:13 and 7:4 must be 0. -/
def reservedClear (word : Word) : Bool := word.extractLsb' 13 19 == 0 && word.extractLsb' 4 4 == 0

/-- R75: a command without an offset is legal only with OFF = 0. -/
def noOff (i : Instr) (off : Nat) : Except Illegal Instr := if off = 0 then .ok i else .error .offNotZero

/-- R75, by the value of OP, once the reserved bits are known to be 0. -/
def decodeOp (op : BitVec 4) (off : Nat) : Except Illegal Instr :=
  match op.toNat with
  | 0x0 => noOff .nop off
  | 0x1 => noOff .henc off
  | 0x2 => noOff .hdec off
  | 0x3 => .ok (.f32enc off)
  | 0x4 => .ok (.f32dec off)
  | 0x5 => .ok (.u16enc off)
  | 0x6 => .ok (.u16dec off)
  | 0x7 => noOff .pldenc off
  | 0x8 => noOff .plddec off
  | 0x9 => noOff .pktenc off
  | 0xA => noOff .pktdec off
  | _ => .error .noSuchOp

/-- R75: `decode(word)`. -/
def decode (word : Word) : Except Illegal Instr :=
  if reservedClear word then decodeOp (opField word) (offField word) else .error .reservedBits

/-- R74: the OP of each command. -/
def Instr.op : Instr → Nat
  | .nop => 0x0
  | .henc => 0x1
  | .hdec => 0x2
  | .f32enc _ => 0x3
  | .f32dec _ => 0x4
  | .u16enc _ => 0x5
  | .u16dec _ => 0x6
  | .pldenc => 0x7
  | .plddec => 0x8
  | .pktenc => 0x9
  | .pktdec => 0xA

/-- R72: the OFF of each command, 0 for a command that has none. -/
def Instr.off : Instr → Nat
  | .nop => 0
  | .henc => 0
  | .hdec => 0
  | .f32enc off => off
  | .f32dec off => off
  | .u16enc off => off
  | .u16dec off => off
  | .pldenc => 0
  | .plddec => 0
  | .pktenc => 0
  | .pktdec => 0

/-- R77: the word of a command is `(off << 8) | OP`. Meant for a well-formed command. -/
def encode (i : Instr) : Word := BitVec.ofNat 32 (i.off <<< 8) ||| BitVec.ofNat 32 i.op

/-- One row of the opcode map (R74): a word is this row's when `word & mask` is `pattern` (the table's `match`). -/
structure OpRow where
  mnemonic : String
  pattern : Word
  mask : Word
  deriving DecidableEq, Repr

/-- R74: a word matches a row under its mask. -/
def OpRow.matches (r : OpRow) (word : Word) : Bool := word &&& r.mask == r.pattern

/-- The row of R74's table that a command belongs to. -/
def Instr.row : Instr → OpRow
  | .nop => ⟨"NOP", 0x00000000#32, 0xFFFFFFFF#32⟩
  | .henc => ⟨"HENC", 0x00000001#32, 0xFFFFFFFF#32⟩
  | .hdec => ⟨"HDEC", 0x00000002#32, 0xFFFFFFFF#32⟩
  | .f32enc _ => ⟨"F32ENC", 0x00000003#32, 0xFFFFE0FF#32⟩
  | .f32dec _ => ⟨"F32DEC", 0x00000004#32, 0xFFFFE0FF#32⟩
  | .u16enc _ => ⟨"U16ENC", 0x00000005#32, 0xFFFFE0FF#32⟩
  | .u16dec _ => ⟨"U16DEC", 0x00000006#32, 0xFFFFE0FF#32⟩
  | .pldenc => ⟨"PLDENC", 0x00000007#32, 0xFFFFFFFF#32⟩
  | .plddec => ⟨"PLDDEC", 0x00000008#32, 0xFFFFFFFF#32⟩
  | .pktenc => ⟨"PKTENC", 0x00000009#32, 0xFFFFFFFF#32⟩
  | .pktdec => ⟨"PKTDEC", 0x0000000A#32, 0xFFFFFFFF#32⟩

/-- The opcode map of R74, row by row. -/
def opcodeMap : List OpRow :=
  [Instr.nop.row, Instr.henc.row, Instr.hdec.row, (Instr.f32enc 0).row, (Instr.f32dec 0).row, (Instr.u16enc 0).row,
   (Instr.u16dec 0).row, Instr.pldenc.row, Instr.plddec.row, Instr.pktenc.row, Instr.pktdec.row]

/-- The command word whose low `nbits` bits are those of `w` and whose other bits are 0. A command word is one 32-bit
datum (R70, R73), so its bits are numbered as the opcode table numbers them. -/
def tableWord (nbits w : Nat) : Word := BitVec.ofNat 32 (w % 2 ^ nbits)

/-- What the decoder reads from the bits `w` of an opcode-table row; none where it refuses, and none for bits that do not
fit one command word. -/
def decodeTableWord (nbits w : Nat) : Option Instr :=
  if w % 2 ^ nbits < 2 ^ 32 then (decode (tableWord nbits w)).toOption else none

end Sys2Proof
end

