-- ==== Sys2Proof/Config.lean ====
section
/-! DEFINITION. The block's fixed parameters (00_scope.md R6) and the place of PK in the host window (20_memory.md R51).
R7: no parameter is left open, so there is no free value here. -/

namespace Sys2Proof.Config

/-- BUF_BYTES: the size of the packet buffer PK (R6, R41). -/
def bufBytes : Nat := 32

/-- CMD_PAYLOAD_BYTES: the length of the commander payload (R6, R120). -/
def cmdPayloadBytes : Nat := 14

/-- HDR_BYTES: the length of the header on the wire (R6). -/
def hdrBytes : Nat := 1

/-- F32_BYTES: the width of a float32 field (R6). -/
def f32Bytes : Nat := 4

/-- U16_BYTES: the width of a uint16 field (R6). -/
def u16Bytes : Nat := 2

/-- The host address of `PK[0]` (R41, R51). -/
def pkBase : Nat := 0x40

/-- The first host address above PK (R51). -/
def pkEnd : Nat := 0x60

/-- The host address of CMD (R26). -/
def cmdAddr : Addr := 0x04#7

@[simp] theorem bufBytes_eq : bufBytes = 32 := rfl
@[simp] theorem cmdPayloadBytes_eq : cmdPayloadBytes = 14 := rfl
@[simp] theorem hdrBytes_eq : hdrBytes = 1 := rfl
@[simp] theorem f32Bytes_eq : f32Bytes = 4 := rfl
@[simp] theorem u16Bytes_eq : u16Bytes = 2 := rfl
@[simp] theorem pkBase_eq : pkBase = 64 := rfl
@[simp] theorem pkEnd_eq : pkEnd = 96 := rfl

end Sys2Proof.Config
end

