-- ==== Sys2Proof/Machine/State.lean ====
section
/-! DEFINITION. The block's whole architectural state (10_state.md R20), the two sides of its host port, its faults and
refusals, and the state after reset (70_reset_and_hazards.md R180). -/

namespace Sys2Proof.Machine

/-- The byte storage of the host window: PK, as (host address, byte) cells in rising address order, no cell of value 0.
An unlisted address of PK reads 0x00, the reset value of R41. -/
abbrev Memory := List Host.Cell

/-- A host port access (20_memory.md R52, R53). -/
inductive HostAccess where
  /-- RD32: a 32-bit read. -/
  | rd32 (a : Addr)
  /-- WR32: a 32-bit write. -/
  | wr32 (a : Addr) (w : Word)
  /-- RD8: an 8-bit read. -/
  | rd8 (a : Addr)
  /-- WR8: an 8-bit write. -/
  | wr8 (a : Addr) (b : Byte)
  /-- An access, read or write, of any width other than 8 and 32 bits. R52 admits none (log entry 10). -/
  | otherWidth (bits : Nat) (a : Addr)
  deriving DecidableEq, Repr

/-- What reaches the block from outside: a host access, or its reset input (R180). -/
inductive HostEvent where
  | access (x : HostAccess)
  | reset
  deriving DecidableEq, Repr

/-- The block's answer to a host access. -/
inductive Response where
  /-- A write was admitted (the spec gives an admitted write no data to answer; log entry 3). -/
  | done
  /-- The data of a 32-bit read (R54, R56). -/
  | word (w : Word)
  /-- The data of an 8-bit read (R57). -/
  | byte (b : Byte)
  /-- The access is not admitted (R53). -/
  | busError
  deriving DecidableEq, Repr

/-- Why the machine stops. -/
inductive Fault where
  /-- Raised by a command that reads or writes a PK index of 32 or more, which does not exist (R41). R11 and R100 say
  that no command does so; it needs PKLEN.LEN above 32, which R38 excludes. Safe: the model stops where the spec gives
  no behaviour, and no run from reset reaches it. -/
  | outsideBuffer
  deriving DecidableEq, Repr

/-- Why an instruction has no meaning. -/
inductive Refusal where
  /-- Raised by an arm of exec whose command is not modelled. No arm raises it: every command has its meaning. Safe. -/
  | notModelled (mnemonic : String)
  deriving DecidableEq, Repr

/-- The state of R20, field by field. A register's reserved bits are not stored: they read 0 (R42). CMD stores nothing
(R26). The last two fields are the model's own: the two sides of the host port. -/
structure State where
  /-- CTRL.ENDIAN (R22, R23): 0 little-endian, 1 big-endian. -/
  endian : BitVec 1
  /-- CTRL.HCHK (R22, R24): 1 enables the header recognized-value check. -/
  hchk : BitVec 1
  /-- CTRL.KIND (R22, R25): 0 commander packets, 1 header-only packets. -/
  kind : BitVec 1
  /-- STATUS.ERR (R27, R28). -/
  err : BitVec 3
  /-- STATUS.CAT (R27, R29). -/
  cat : BitVec 3
  /-- HDR.PORT (R31). -/
  port : BitVec 4
  /-- HDR.CHAN (R31). -/
  chan : BitVec 2
  /-- HDR.HV (R31): 1 when the header is present. -/
  hv : BitVec 1
  /-- HB.BYTE (R33). -/
  hb : Byte
  /-- FV (R34). -/
  fv : Word
  /-- ROLL (R35), a float32 pattern. -/
  roll : Word
  /-- PITCH (R35), a float32 pattern. -/
  pitch : Word
  /-- YAW (R35), a float32 pattern. -/
  yaw : Word
  /-- THRUST.VAL (R36). -/
  thrust : BitVec 16
  /-- PAYV.PV (R37): 1 when the payload is present. -/
  pv : BitVec 1
  /-- PKLEN.LEN (R38): the number of valid bytes of PK, 0 to 32. -/
  len : BitVec 6
  /-- PORT_OK (R39): bit p is 1 when Port value p is recognized. -/
  portOk : BitVec 16
  /-- CHAN_OK (R40): bit c is 1 when Channel value c is recognized. -/
  chanOk : BitVec 4
  /-- PK (R41), at host addresses 0x40 to 0x5F. -/
  pk : Memory
  /-- The model's own: the host events the block has not seen yet, in the host's order (R60; log entry 1). -/
  pending : List HostEvent
  /-- The model's own: the answer to the latest host access (log entry 3). -/
  response : Option Response
  deriving DecidableEq, Repr

/-- The state after reset (R180). Nothing is pending: a host program comes from outside (log entry 1). -/
def State.reset : State where
  endian := 0#1
  hchk := 0#1
  kind := 0#1
  err := 0#3
  cat := 0#3
  port := 0#4
  chan := 0#2
  hv := 0#1
  hb := 0#8
  fv := 0#32
  roll := 0#32
  pitch := 0#32
  yaw := 0#32
  thrust := 0#16
  pv := 0#1
  len := 0#6
  portOk := 0xFFFF#16
  chanOk := 0xF#4
  pk := []
  pending := []
  response := none

end Sys2Proof.Machine
end

