-- ==== Sys2Proof/Machine/Flags.lean ====
section
/-! DEFINITION. The status codes (10_state.md R28, R29): what STATUS holds after a command. -/

namespace Sys2Proof.Machine

/-- The errors a command can raise (00_scope.md R13). -/
inductive CmdError where
  | validationError
  | decodeError
  | encodeError
  | illegalCommand
  deriving DecidableEq, Repr

/-- The field categories used with `raise` (00_scope.md R14). -/
inductive Category where
  | header
  | payloadLength
  | float32
  | uint16
  | command
  deriving DecidableEq, Repr

/-- STATUS.ERR of an error (R28). -/
def CmdError.code : CmdError → BitVec 3
  | .validationError => 1#3
  | .decodeError => 2#3
  | .encodeError => 3#3
  | .illegalCommand => 4#3

/-- STATUS.CAT of a category (R29). -/
def Category.code : Category → BitVec 3
  | .header => 1#3
  | .payloadLength => 2#3
  | .float32 => 3#3
  | .uint16 => 4#3
  | .command => 5#3

/-- Both fields of STATUS written at once (R13, R30). -/
def State.setStatus (s : State) (err cat : BitVec 3) : State := { s with err := err, cat := cat }

end Sys2Proof.Machine
end

