-- ==== Sys2Proof/Machine/Ops.lean ====
section
/-! DEFINITION. The named operations over the packet buffer and the registers, and how a command ends: completing, or
raising an error (00_scope.md R11, R13). -/

namespace Sys2Proof.Machine

/-- The byte at a host address of PK; an unlisted address reads 0x00 (R41). -/
def Memory.readByte : Memory → Nat → Byte
  | [], _ => 0#8
  | (x, y) :: rest, a => if a = x then y else Memory.readByte rest a

/-- Store one byte, keeping the cells in rising order and free of zero bytes. -/
def Memory.writeByte : Memory → Nat → Byte → Memory
  | [], a, b => if b = 0#8 then [] else [(a, b)]
  | (x, y) :: rest, a, b =>
    if a < x then (if b = 0#8 then (x, y) :: rest else (a, b) :: (x, y) :: rest)
    else if a = x then (if b = 0#8 then rest else (a, b) :: rest)
    else (x, y) :: Memory.writeByte rest a b

/-- Store a list of bytes at consecutive addresses. -/
def Memory.writeBytes : Memory → Nat → List Byte → Memory
  | m, _, [] => m
  | m, a, b :: bs => Memory.writeBytes (Memory.writeByte m a b) (a + 1) bs

/-- The canonical form, from address `lo` on: addresses strictly rising, inside PK, no byte 0. -/
def Memory.wfFrom : Nat → Memory → Bool
  | _, [] => true
  | lo, (x, y) :: rest =>
    decide (lo ≤ x) && decide (x < Config.pkEnd) && decide (y ≠ 0#8) && Memory.wfFrom (x + 1) rest

/-- The canonical form of PK's cells: equal buffers are equal lists. -/
def Memory.wf (m : Memory) : Bool := Memory.wfFrom Config.pkBase m

/-- `PK[i]` (R41: byte `PK[i]` is at host address 0x40 + i). Meant for `i < 32`. -/
def State.pkByte (s : State) (i : Nat) : Byte := Memory.readByte s.pk (Config.pkBase + i)

/-- R11: `MemRead(a, n)`; none where it would leave PK. -/
def memRead (a n : Nat) (s : State) : Option (List Byte) :=
  if a + n ≤ Config.bufBytes then some ((List.range n).map fun k => s.pkByte (a + k)) else none

/-- PK replaced. -/
def State.setPk (s : State) (m : Memory) : State := { s with pk := m }

/-- R11: `MemWrite(a, n, bs)` with `n` the length of `bs`; none where it would leave PK. -/
def memWrite (a : Nat) (bs : List Byte) (s : State) : Option State :=
  if a + bs.length ≤ Config.bufBytes then some (s.setPk (Memory.writeBytes s.pk (Config.pkBase + a) bs)) else none

/-- `x[HDR]` written whole (R46). -/
def State.setHdr (s : State) (p : BitVec 4) (c : BitVec 2) (v : BitVec 1) : State :=
  { s with port := p, chan := c, hv := v }

/-- `x[HDR].HV` written alone (R132, the empty packet). -/
def State.setHv (s : State) (v : BitVec 1) : State := { s with hv := v }

/-- `x[HB]` written. -/
def State.setHb (s : State) (b : Byte) : State := { s with hb := b }

/-- `x[FV]` written. -/
def State.setFv (s : State) (v : Word) : State := { s with fv := v }

/-- `x[ROLL]`, `x[PITCH]`, `x[YAW]` and `x[THRUST].VAL` written together (R46). -/
def State.setPayload (s : State) (r p y : Word) (t : BitVec 16) : State :=
  { s with roll := r, pitch := p, yaw := y, thrust := t }

/-- `x[PAYV].PV` written. -/
def State.setPv (s : State) (v : BitVec 1) : State := { s with pv := v }

/-- `x[PKLEN].LEN` written by a command. -/
def State.setLen (s : State) (n : BitVec 6) : State := { s with len := n }

/-- The answer to a host access. -/
def State.setResponse (s : State) (r : Response) : State := { s with response := some r }

/-- R13: a command that reaches its end sets STATUS to 0; its writes, already in `s`, take effect with it. -/
def complete (s : State) : Host.Outcome State Fault Refusal := .next (s.setStatus 0#3 0#3)

/-- R13, R150, R159: `raise`. The state before the command, `s`, with only STATUS written. This is the block's whole
exception entry: no saved state, no vector, no change of mode. R160: there is no return from it. -/
def raise (e : CmdError) (c : Category) (s : State) : Host.Outcome State Fault Refusal :=
  .next (s.setStatus e.code c.code)

end Sys2Proof.Machine
end

