-- ==== Sys2Proof/Machine/Operands.lean ====
section
/-! DEFINITION. The operand forms: byte order and field codecs (00_scope.md R12, 40_field_codec.md R100), the header byte
(41_header.md R111 to R113), the commander payload (42_payload.md R121, R122), the packet (43_packet.md R130). -/

namespace Sys2Proof.Machine

/-- The byte orders of R12. -/
inductive ByteOrder where
  | le
  | be
  deriving DecidableEq, Repr

/-- `E_cur` (R12, R23). -/
def State.byteOrder (s : State) : ByteOrder := if s.endian = 0#1 then .le else .be

/-- Byte `k` of R12's `bytes_of(v, n, E)`. -/
def byteAt {w : Nat} (n : Nat) (v : BitVec w) (e : ByteOrder) (k : Nat) : Byte :=
  match e with
  | .le => v.extractLsb' (8 * k) 8
  | .be => v.extractLsb' (8 * (n - 1 - k)) 8

/-- R12: `bytes_of(v, n, E)`. -/
def bytesOf {w : Nat} (n : Nat) (v : BitVec w) (e : ByteOrder) : List Byte := (List.range n).map (byteAt n v e)

/-- R12: the little-endian value of a list of bytes, as a `w`-bit number. -/
def valueLe (w : Nat) : List Byte → BitVec w
  | [] => 0#w
  | b :: bs => (valueLe w bs <<< 8) ||| b.setWidth w

/-- R12: `value_of(b, E)`, for a list of `w / 8` bytes. -/
def valueOf (w : Nat) (bs : List Byte) (e : ByteOrder) : BitVec w :=
  match e with
  | .le => valueLe w bs
  | .be => valueLe w bs.reverse

/-- R100 to R104: store the `n`-byte field value `v` at `PK[off ..]`, or raise EncodeError with the field's category
when `off + n` is past LEN. LEN is not changed. -/
def encodeField {w : Nat} (n : Nat) (c : Category) (off : Nat) (v : BitVec w) (s : State) :
    Host.Outcome State Fault Refusal :=
  if s.len.toNat < off + n then raise .encodeError c s
  else match memWrite off (bytesOf n v s.byteOrder) s with
    | none => .fault .outsideBuffer
    | some t => complete t

/-- R100 to R104: load FV, zero-extended, with the `n`-byte field value at `PK[off ..]`, or raise DecodeError with the
field's category when `off + n` is past LEN. -/
def decodeField (n : Nat) (c : Category) (off : Nat) (s : State) : Host.Outcome State Fault Refusal :=
  if s.len.toNat < off + n then raise .decodeError c s
  else match memRead off n s with
    | none => .fault .outsideBuffer
    | some bs => complete (s.setFv ((valueOf (8 * n) bs s.byteOrder).setWidth 32))

/-- R111: `hbyte(p, c) = p[3:0] || 0b00 || c[1:0]`. -/
def hbyte (p : BitVec 4) (c : BitVec 2) : Byte := p ++ 0#2 ++ c

/-- R112: the Port of a header byte. -/
def hdecPort (b : Byte) : BitVec 4 := b.extractLsb' 4 4

/-- R112: the Channel of a header byte. -/
def hdecChan (b : Byte) : BitVec 2 := b.extractLsb' 0 2

/-- R39, R40: Port `p` and Channel `c` are both recognized. -/
def State.recognized (s : State) (p : BitVec 4) (c : BitVec 2) : Bool :=
  s.portOk.getLsbD p.toNat && s.chanOk.getLsbD c.toNat

/-- R113: `hcheck(p, c)` does not raise. -/
def State.hcheckPasses (s : State) (p : BitVec 4) (c : BitVec 2) : Bool :=
  s.hchk == 0#1 || s.recognized p c

/-- R121: `cmd_bytes(E)`, 14 bytes. -/
def State.cmdBytes (s : State) (e : ByteOrder) : List Byte :=
  bytesOf Config.f32Bytes s.roll e ++ bytesOf Config.f32Bytes s.pitch e ++ bytesOf Config.f32Bytes s.yaw e
    ++ bytesOf Config.u16Bytes s.thrust e

/-- R122: `cmd_fields(b, E)`, written into ROLL, PITCH, YAW and THRUST. -/
def State.setCmdFields (s : State) (bs : List Byte) (e : ByteOrder) : State :=
  s.setPayload (valueOf 32 (bs.take 4) e) (valueOf 32 ((bs.drop 4).take 4) e) (valueOf 32 ((bs.drop 8).take 4) e)
    (valueOf 16 ((bs.drop 12).take 2) e)

/-- The header part of R131's `out`. -/
def State.headerBytes (s : State) : List Byte := if s.hv = 1#1 then [hbyte s.port s.chan] else []

/-- The payload part of R131's `out`. -/
def State.payloadBytes (s : State) : List Byte :=
  if s.kind = 0#1 ∧ s.pv = 1#1 then s.cmdBytes s.byteOrder else []

/-- R130, R131: the wire bytes of the packet that HDR, PAYV and the payload registers hold. -/
def State.packetBytes (s : State) : List Byte := s.headerBytes ++ s.payloadBytes

/-- R123, R131: `MemWrite(0, len(out), out)` and `x[PKLEN].LEN <- len(out)`. -/
def storeBuffer (out : List Byte) (s : State) : Host.Outcome State Fault Refusal :=
  match memWrite 0 out s with
  | none => .fault .outsideBuffer
  | some t => complete (t.setLen (BitVec.ofNat 6 out.length))

end Sys2Proof.Machine
end

