-- ==== Sys2Proof/Machine/Field.lean ====
section
/-! DEFINITION. The field codec primitives (40_field_codec.md). -/

namespace Sys2Proof.Machine

/-- F32ENC (R101): all 32 bits of FV to `PK[off .. off+3]`. -/
def execF32enc (off : Nat) (s : State) : Host.Outcome State Fault Refusal :=
  encodeField Config.f32Bytes .float32 off s.fv s

/-- F32DEC (R102): FV from `PK[off .. off+3]`. -/
def execF32dec (off : Nat) (s : State) : Host.Outcome State Fault Refusal :=
  decodeField Config.f32Bytes .float32 off s

/-- U16ENC (R103): `FV[15:0]` to `PK[off .. off+1]`; `FV[31:16]` is ignored. -/
def execU16enc (off : Nat) (s : State) : Host.Outcome State Fault Refusal :=
  encodeField Config.u16Bytes .uint16 off (s.fv.extractLsb' 0 16) s

/-- U16DEC (R104): FV, zero-extended, from `PK[off .. off+1]`. -/
def execU16dec (off : Nat) (s : State) : Host.Outcome State Fault Refusal :=
  decodeField Config.u16Bytes .uint16 off s

end Sys2Proof.Machine
end

