-- ==== Sys2Proof/Machine/Header.lean ====
section
/-! DEFINITION. The header commands (41_header.md). -/

namespace Sys2Proof.Machine

/-- HENC (R114): HB from PORT and CHAN, whatever HV, HCHK and the recognized sets are. -/
def execHenc (s : State) : Host.Outcome State Fault Refusal := complete (s.setHb (hbyte s.port s.chan))

/-- HDEC (R115): HDR from HB, unless the recognized-value check raises DecodeError(HEADER) (R113). -/
def execHdec (s : State) : Host.Outcome State Fault Refusal :=
  if s.hcheckPasses (hdecPort s.hb) (hdecChan s.hb) then
    complete (s.setHdr (hdecPort s.hb) (hdecChan s.hb) 1#1)
  else raise .decodeError .header s

end Sys2Proof.Machine
end

