-- ==== Sys2Proof/Machine/Packet.lean ====
section
/-! DEFINITION. The packet framing commands (43_packet.md). -/

namespace Sys2Proof.Machine

/-- PKTENC (R131): the packet's wire bytes to `PK[0 ..]` and their number to LEN. -/
def execPktenc (s : State) : Host.Outcome State Fault Refusal := storeBuffer s.packetBytes s

/-- R132, after the header of a non-empty packet has decoded to Port `p` and Channel `c` and passed the check: the
payload by KIND and by the length of the remainder. -/
def decodeRemainder (p : BitVec 4) (c : BitVec 2) (s : State) : Host.Outcome State Fault Refusal :=
  if s.kind = 1#1 ∨ s.len.toNat = Config.hdrBytes then complete ((s.setHdr p c 1#1).setPv 0#1)
  else if s.len.toNat - Config.hdrBytes ≠ Config.cmdPayloadBytes then raise .validationError .payloadLength s
  else match memRead Config.hdrBytes Config.cmdPayloadBytes s with
    | none => .fault .outsideBuffer
    | some bs => complete (((s.setHdr p c 1#1).setCmdFields bs s.byteOrder).setPv 1#1)

/-- PKTDEC (R132): the empty packet clears HV and PV; otherwise the header is decoded from `PK[0]` and checked (R113)
before the remainder's length is looked at (R157). -/
def execPktdec (s : State) : Host.Outcome State Fault Refusal :=
  if s.len.toNat = 0 then complete ((s.setHv 0#1).setPv 0#1)
  else if s.hcheckPasses (hdecPort (s.pkByte 0)) (hdecChan (s.pkByte 0)) then
    decodeRemainder (hdecPort (s.pkByte 0)) (hdecChan (s.pkByte 0)) s
  else raise .decodeError .header s

end Sys2Proof.Machine
end

