-- ==== Sys2Proof/Machine/Payload.lean ====
section
/-! DEFINITION. The commander payload commands (42_payload.md). -/

namespace Sys2Proof.Machine

/-- PLDENC (R123): the payload registers to `PK[0..13]`, LEN to 14, whatever PV and KIND are. -/
def execPldenc (s : State) : Host.Outcome State Fault Refusal := storeBuffer (s.cmdBytes s.byteOrder) s

/-- PLDDEC (R124): the payload registers from `PK[0..13]` and PV to 1, or ValidationError(PAYLOAD_LENGTH) when LEN is
not 14. -/
def execPlddec (s : State) : Host.Outcome State Fault Refusal :=
  if s.len.toNat ≠ Config.cmdPayloadBytes then raise .validationError .payloadLength s
  else match memRead 0 Config.cmdPayloadBytes s with
    | none => .fault .outsideBuffer
    | some bs => complete ((s.setCmdFields bs s.byteOrder).setPv 1#1)

end Sys2Proof.Machine
end

