-- ==== Sys2Proof/Machine/Dispatch.lean ====
section
/-! DEFINITION. The meaning of each command (30_encoding.md R74). -/

namespace Sys2Proof.Machine

def exec (i : Instr) (s : State) : Host.Outcome State Fault Refusal :=
  match i with
  | .nop => Sys2Proof.Machine.execNop s
  | .henc => Sys2Proof.Machine.execHenc s
  | .hdec => Sys2Proof.Machine.execHdec s
  | .f32enc off => Sys2Proof.Machine.execF32enc off s
  | .f32dec off => Sys2Proof.Machine.execF32dec off s
  | .u16enc off => Sys2Proof.Machine.execU16enc off s
  | .u16dec off => Sys2Proof.Machine.execU16dec off s
  | .pldenc => Sys2Proof.Machine.execPldenc s
  | .plddec => Sys2Proof.Machine.execPlddec s
  | .pktenc => Sys2Proof.Machine.execPktenc s
  | .pktdec => Sys2Proof.Machine.execPktdec s

end Sys2Proof.Machine
end

