-- ==== Sys2Proof/Machine/HostPort.lean ====
section
/-! DEFINITION. The host port (20_memory.md): the address map, the registers as the host reads and writes them, the
admitted accesses, the run of a command, and the reset input. -/

namespace Sys2Proof.Machine

/-- The registers of the address map (R20, R51). -/
inductive Reg where
  | ctrl
  | cmd
  | status
  | hdr
  | hb
  | fv
  | roll
  | pitch
  | yaw
  | thrust
  | payv
  | pklen
  | portOk
  | chanOk
  deriving DecidableEq, Repr

/-- The host address of a register (R20). -/
def Reg.addr : Reg → Addr
  | .ctrl => 0x00#7
  | .cmd => 0x04#7
  | .status => 0x08#7
  | .hdr => 0x0C#7
  | .hb => 0x10#7
  | .fv => 0x14#7
  | .roll => 0x18#7
  | .pitch => 0x1C#7
  | .yaw => 0x20#7
  | .thrust => 0x24#7
  | .payv => 0x28#7
  | .pklen => 0x2C#7
  | .portOk => 0x30#7
  | .chanOk => 0x34#7

/-- What stands at a host address (R51). -/
inductive Target where
  | reg (r : Reg)
  | pk (i : Nat)
  | unmapped
  deriving DecidableEq, Repr

/-- The register whose word holds host address `a`, by the word number `a[6:2]` (R20, R51). -/
def regOfWord (k : Nat) : Option Reg :=
  match k with
  | 0 => some .ctrl
  | 1 => some .cmd
  | 2 => some .status
  | 3 => some .hdr
  | 4 => some .hb
  | 5 => some .fv
  | 6 => some .roll
  | 7 => some .pitch
  | 8 => some .yaw
  | 9 => some .thrust
  | 10 => some .payv
  | 11 => some .pklen
  | 12 => some .portOk
  | 13 => some .chanOk
  | _ => none

/-- The address map of R51. -/
def target (a : Addr) : Target :=
  if Config.pkBase ≤ a.toNat ∧ a.toNat < Config.pkEnd then .pk (a.toNat - Config.pkBase)
  else match regOfWord (a.toNat / 4) with
    | some r => .reg r
    | none => .unmapped

/-- R52: `A[1:0] = 0`. -/
def aligned (a : Addr) : Bool := a.extractLsb' 0 2 == 0#2

/-- R52, read straight off its table and R51: the accesses the port admits. -/
def admits : HostAccess → Bool
  | .rd32 a => decide (a.toNat % 4 = 0) && (decide (a.toNat < 0x38) || decide (0x40 ≤ a.toNat ∧ a.toNat < 0x60))
  | .wr32 a _ => decide (a.toNat % 4 = 0) && (decide (a.toNat < 0x38) || decide (0x40 ≤ a.toNat ∧ a.toNat < 0x60))
  | .rd8 a => decide (0x40 ≤ a.toNat ∧ a.toNat < 0x60)
  | .wr8 a _ => decide (0x40 ≤ a.toNat ∧ a.toNat < 0x60)
  | .otherWidth _ _ => false

/-- R54: the 32-bit value a register reads as, every reserved bit 0; CMD reads 0. -/
def readReg (r : Reg) (s : State) : Word :=
  match r with
  | .ctrl => (s.kind ++ s.hchk ++ s.endian).setWidth 32
  | .cmd => 0#32
  | .status => (s.cat ++ 0#1 ++ s.err).setWidth 32
  | .hdr => (s.hv ++ 0#2 ++ s.chan ++ s.port).setWidth 32
  | .hb => s.hb.setWidth 32
  | .fv => s.fv
  | .roll => s.roll
  | .pitch => s.pitch
  | .yaw => s.yaw
  | .thrust => s.thrust.setWidth 32
  | .payv => s.pv.setWidth 32
  | .pklen => s.len.setWidth 32
  | .portOk => s.portOk.setWidth 32
  | .chanOk => s.chanOk.setWidth 32

/-- R38: `LEN <- min(w[5:0], 32)`. -/
def legalLen (w : Word) : BitVec 6 := if 32 < (w.extractLsb' 0 6).toNat then 32#6 else w.extractLsb' 0 6

/-- R55: a host write of `w` to a register other than CMD. A write to STATUS is ignored (R27). CMD stores nothing (R26):
a write to it runs a command, in runCommand. -/
def writeReg (r : Reg) (w : Word) (s : State) : State :=
  match r with
  | .ctrl => { s with endian := w.extractLsb' 0 1, hchk := w.extractLsb' 1 1, kind := w.extractLsb' 2 1 }
  | .cmd => s
  | .status => s
  | .hdr => s.setHdr (w.extractLsb' 0 4) (w.extractLsb' 4 2) (w.extractLsb' 8 1)
  | .hb => s.setHb (w.extractLsb' 0 8)
  | .fv => s.setFv w
  | .roll => { s with roll := w }
  | .pitch => { s with pitch := w }
  | .yaw => { s with yaw := w }
  | .thrust => { s with thrust := w.extractLsb' 0 16 }
  | .payv => s.setPv (w.extractLsb' 0 1)
  | .pklen => s.setLen (legalLen w)
  | .portOk => { s with portOk := w.extractLsb' 0 16 }
  | .chanOk => { s with chanOk := w.extractLsb' 0 4 }

/-- R56: the word `PK[i+3] || PK[i+2] || PK[i+1] || PK[i]`, whatever CTRL.ENDIAN is. -/
def pkWord (i : Nat) (s : State) : Word := s.pkByte (i + 3) ++ s.pkByte (i + 2) ++ s.pkByte (i + 1) ++ s.pkByte i

/-- R56, R57, R58: a host write of bytes to PK from index `i` on; PKLEN does not change. -/
def writePk (i : Nat) (bs : List Byte) (s : State) : State :=
  s.setPk (Memory.writeBytes s.pk (Config.pkBase + i) bs)

/-- The state after an access, with its response. -/
def respond (r : Response) (s : State) : Host.Outcome State Fault Refusal := .next (s.setResponse r)

/-- R53: a refused access reads no data and changes no state. -/
def busError (s : State) : Host.Outcome State Fault Refusal := respond .busError s

/-- R61, R70, R75: the run of the command whose word is the data of a WR32 to CMD, to completion; an illegal word raises
IllegalCommand(COMMAND) (R154). -/
def runCommand (w : Word) (s : State) : Host.Outcome State Fault Refusal :=
  match decode w with
  | .ok i => exec i s
  | .error _ => raise .illegalCommand .command s

/-- R54, R56: RD32. -/
def rd32 (a : Addr) (s : State) : Host.Outcome State Fault Refusal :=
  if aligned a then
    match target a with
    | .reg r => respond (.word (readReg r s)) s
    | .pk i => respond (.word (pkWord i s)) s
    | .unmapped => busError s
  else busError s

/-- R55, R56, R61: WR32. -/
def wr32 (a : Addr) (w : Word) (s : State) : Host.Outcome State Fault Refusal :=
  if aligned a then
    match target a with
    | .reg .cmd => runCommand w (s.setResponse .done)
    | .reg r => respond .done (writeReg r w s)
    | .pk i => respond .done (writePk i (bytesOf 4 w .le) s)
    | .unmapped => busError s
  else busError s

/-- R57: RD8. -/
def rd8 (a : Addr) (s : State) : Host.Outcome State Fault Refusal :=
  match target a with
  | .reg _ => busError s
  | .pk i => respond (.byte (s.pkByte i)) s
  | .unmapped => busError s

/-- R57: WR8. -/
def wr8 (a : Addr) (b : Byte) (s : State) : Host.Outcome State Fault Refusal :=
  match target a with
  | .reg _ => busError s
  | .pk i => respond .done (writePk i [b] s)
  | .unmapped => busError s

/-- One host port access (R52). -/
def hostAccess (x : HostAccess) (s : State) : Host.Outcome State Fault Refusal :=
  match x with
  | .rd32 a => rd32 a s
  | .wr32 a w => wr32 a w s
  | .rd8 a => rd8 a s
  | .wr8 a b => wr8 a b s
  | .otherWidth _ _ => busError s

/-- R180: the reset input. Every piece of the block's state takes its reset value; what the host has still to issue
stays the host's (log entry 5). -/
def resetBlock (s : State) : State := { State.reset with pending := s.pending }

/-- One event from outside. -/
def hostEvent (e : HostEvent) (s : State) : Host.Outcome State Fault Refusal :=
  match e with
  | .access x => hostAccess x s
  | .reset => .next (resetBlock s)

/-- R2, R3, R60: the block takes the host's next event; with none it does nothing (log entry 2). -/
def hostStep (s : State) : Host.Outcome State Fault Refusal :=
  match s.pending with
  | [] => .next s
  | e :: rest => hostEvent e { s with pending := rest }

end Sys2Proof.Machine
end

