-- ==== Sys2Proof/Machine/Step.lean ====
section
/-! DEFINITION. The step: the block takes the host's next event. A command arrives as the data of one WR32 to CMD
(10_state.md R21, 20_memory.md R66); there is no program counter and nothing is fetched. -/

namespace Sys2Proof.Machine

/-- One step of the machine. -/
def step (s : State) : Host.Outcome State Fault Refusal := hostStep s

/-- `s` with the host about to write the command word `w` (its low `nbits` bits) to CMD: the next step runs it. This is
how a command reaches the block (R70; log entry 1). -/
def State.withFetchWord (s : State) (nbits w : Nat) : State :=
  { s with pending := .access (.wr32 Config.cmdAddr (tableWord nbits w)) :: s.pending }

end Sys2Proof.Machine
end

