-- ==== Sys2Proof/Machine/Assembler.lean ====
section
/-! DEFINITION. The host program syntax and the assembler's pseudo-instructions (30_encoding.md R77 to R80), as the list
of host events they stand for. -/

namespace Sys2Proof.Machine

/-- A statement of a host program (R78 to R80). Comments and expected values have no effect and no constructor. -/
inductive Statement where
  /-- WR32, RD32, WR8 or RD8 (R78). -/
  | access (x : HostAccess)
  /-- A command mnemonic with its operand (R77, R79). -/
  | command (i : Instr)
  | setHdr (p c : Nat)
  /-- SETHDR with the default Channel. -/
  | setHdrPort (p : Nat)
  | clrHdr
  | setPay (r p y t : Word)
  | clrPay
  | setCtrl (e h k : BitVec 1)
  | setLen (n : Word)
  | loadPk (bs : List Byte)
  deriving DecidableEq, Repr

/-- R80: the default Channel of SETHDR (D8). -/
def defaultChannel : Nat := 0

/-- R77, R80: the operands an assembler accepts. -/
def Statement.wf : Statement → Bool
  | .access _ => true
  | .command i => i.wf
  | .setHdr p c => decide (p < 16) && decide (c < 4)
  | .setHdrPort p => decide (p < 16)
  | .clrHdr => true
  | .setPay _ _ _ _ => true
  | .clrPay => true
  | .setCtrl _ _ _ => true
  | .setLen _ => true
  | .loadPk bs => decide (bs.length ≤ Config.bufBytes)

/-- `WR8 PK+i, b` for the bytes of a list, from index `i` on (R80, LOADPK). -/
def loadBytes (i : Nat) : List Byte → List HostAccess
  | [] => []
  | b :: bs => .wr8 (BitVec.ofNat 7 (Config.pkBase + i)) b :: loadBytes (i + 1) bs

/-- R79, R80: the host accesses a statement stands for. Meant for a statement the assembler accepts. -/
def Statement.expand : Statement → List HostAccess
  | .access x => [x]
  | .command i => [.wr32 Config.cmdAddr (encode i)]
  | .setHdr p c => [.wr32 Reg.hdr.addr (BitVec.ofNat 32 (0x100 + (c <<< 4) + p))]
  | .setHdrPort p => [.wr32 Reg.hdr.addr (BitVec.ofNat 32 (0x100 + (defaultChannel <<< 4) + p))]
  | .clrHdr => [.wr32 Reg.hdr.addr 0x000#32]
  | .setPay r p y t =>
    [.wr32 Reg.roll.addr r, .wr32 Reg.pitch.addr p, .wr32 Reg.yaw.addr y, .wr32 Reg.thrust.addr t,
     .wr32 Reg.payv.addr 1#32]
  | .clrPay => [.wr32 Reg.payv.addr 0#32]
  | .setCtrl e h k => [.wr32 Reg.ctrl.addr ((k ++ h ++ e).setWidth 32)]
  | .setLen n => [.wr32 Reg.pklen.addr n]
  | .loadPk bs => loadBytes 0 bs ++ [.wr32 Reg.pklen.addr (BitVec.ofNat 32 bs.length)]

/-- R77, R80: the assembler refuses a statement whose operands are out of range. -/
def Statement.assemble (x : Statement) : Option (List HostEvent) :=
  if x.wf then some (x.expand.map .access) else none

end Sys2Proof.Machine
end

