-- ==== Sys2Proof/Safety.lean ====
section
/-! DEFINITION. The terms the statements use: what holds of every state a run can reach, what a good outcome is, and the
wire layout of fields, payload and header as plain arithmetic on numbers, read from the spec a second time and
independently of the meanings. -/

namespace Sys2Proof.Machine

/-- The STATUS values a command can leave, as (ERR, CAT): none (R30), and the causes of R151 to R154. -/
def legalStatus : List (BitVec 3 × BitVec 3) :=
  [(0#3, 0#3), (1#3, 2#3), (2#3, 1#3), (2#3, 3#3), (2#3, 4#3), (3#3, 3#3), (3#3, 4#3), (4#3, 5#3)]

/-- The invariant: PK is in its canonical form, LEN is at most 32 (R38), STATUS holds a legal pair (R28, R29). -/
abbrev State.Inv (s : State) : Prop :=
  Memory.wf s.pk = true ∧ s.len.toNat ≤ 32 ∧ (s.err, s.cat) ∈ legalStatus

/-- The machine goes on, in a state that meets the invariant. -/
def GoesOn (o : Host.Outcome State Fault Refusal) : Prop := ∃ t, o = .next t ∧ t.Inv

/-- R60: the effects of a list of host events, one at a time and in the list's order. -/
def applyInOrder : List HostEvent → State → Host.Outcome State Fault Refusal
  | [], s => .next s
  | e :: es, s =>
    match hostEvent e s with
    | .next t => applyInOrder es t
    | .fault r => .fault r
    | .refused r => .refused r

/-- R63: byte `k` of an `n`-byte field of value `v` on the wire: the digits of `v` in base 256, least significant first
for ENDIAN = 0 and most significant first for ENDIAN = 1. -/
def wireByte (endian : BitVec 1) (n v k : Nat) : Nat :=
  if endian = 0#1 then v / 256 ^ k % 256 else v / 256 ^ (n - 1 - k) % 256

/-- R63, read back: the value of an `n`-byte field whose wire bytes are `b 0, b 1, …`. -/
def wireValue (endian : BitVec 1) (n : Nat) (b : Nat → Nat) : Nat :=
  ((List.range n).map fun k => 256 ^ (if endian = 0#1 then k else n - 1 - k) * b k).sum

/-- `PK[i]` as a number. -/
def State.pkNat (s : State) (i : Nat) : Nat := (s.pkByte i).toNat

/-- R120: wire byte `k` (0 to 13) of the commander payload that the payload registers hold. -/
def State.payloadWireByte (s : State) (k : Nat) : Nat :=
  if k < 4 then wireByte s.endian 4 s.roll.toNat k
  else if k < 8 then wireByte s.endian 4 s.pitch.toNat (k - 4)
  else if k < 12 then wireByte s.endian 4 s.yaw.toNat (k - 8)
  else wireByte s.endian 2 s.thrust.toNat (k - 12)

/-- R110, R113: the header byte `b` passes the recognized-value check: HCHK = 0, or its Port (`b[7:4]`) and its Channel
(`b[1:0]`) are both recognized. -/
def State.HeaderAccepted (s : State) (b : Nat) : Prop :=
  s.hchk = 0#1 ∨ (s.portOk.getLsbD (b / 16) = true ∧ s.chanOk.getLsbD (b % 4) = true)

/-- R120, R122: the payload registers of `t` hold the commander payload whose wire bytes stand in `s`'s PK from index
`a` on, in `s`'s byte order. -/
def State.HoldsPayloadOf (t s : State) (a : Nat) : Prop :=
  t.roll.toNat = wireValue s.endian 4 (fun k => s.pkNat (a + k)) ∧
  t.pitch.toNat = wireValue s.endian 4 (fun k => s.pkNat (a + 4 + k)) ∧
  t.yaw.toNat = wireValue s.endian 4 (fun k => s.pkNat (a + 8 + k)) ∧
  t.thrust.toNat = wireValue s.endian 2 (fun k => s.pkNat (a + 12 + k))

end Sys2Proof.Machine
end

