-- ==== Sys2Proof/Certificates/Slice0/Obligations.lean ====
section
/-! DEFINITION. The statements about the model, from the spec's numbered rules. `expect` of each stands in
OBLIGATIONS.json. A command's statements are about exec, which a CMD write runs (StepRunsDecodedCommand). -/

open Sys2Proof Sys2Proof.Machine

/-! ### Encoding (30_encoding.md) -/

/-- Decode and encode agree, both ways: a word decodes to a command exactly when the command is well formed and the word
is the command's word (R75, R77). -/
def Obligations.DecodeEncodeAgree : Prop :=
  ∀ (w : Word) (i : Instr), decode w = .ok i ↔ i.wf = true ∧ encode i = w

/-- R74: a word is a legal command exactly when it matches one row of the opcode map under its mask, and the command it
decodes to is that row's. -/
def Obligations.LegalWordsAreTheRows : Prop :=
  ∀ w : Word,
    ((∃ i, decode w = .ok i) ↔ ∃ r ∈ opcodeMap, r.matches w = true) ∧
    (∀ i, decode w = .ok i → ∀ r ∈ opcodeMap, r.matches w = true ↔ r = i.row)

/-- R76, R154: the illegal words are exactly the listed ones, and a CMD write of one leaves all of the block's state but
STATUS, which is set to IllegalCommand(COMMAND). (The two sides of the host port, pending and response, are the model's
own fields: log entries 1 and 3.) -/
def Obligations.IllegalWordsRaise : Prop :=
  ∀ w : Word,
    ((¬ ∃ i, decode w = .ok i) ↔
      0xB ≤ w.toNat % 16 ∨ w.toNat / 2 ^ 13 ≠ 0 ∨ w.toNat / 16 % 16 ≠ 0 ∨
        (w.toNat % 16 ∈ [0x0, 0x1, 0x2, 0x7, 0x8, 0x9, 0xA] ∧ w.toNat / 256 % 32 ≠ 0)) ∧
    ((¬ ∃ i, decode w = .ok i) → ∀ (s : State) (rest : List HostEvent),
      s.pending = .access (.wr32 0x04#7 w) :: rest →
      ∃ t, step s = .next t ∧ t = { s with pending := rest, response := t.response, err := 4#3, cat := 5#3 })

/-- A few words written out from the encoding of R70 and the opcodes of R74 decode to the commands they stand for, and a
few that R75 and R76 make illegal to none. (The spec lists the illegal words without numbering their causes: the three
Illegal reasons are the model's own split of R76's list, log entry 14.) -/
def Obligations.SampleWordsDecode : Prop :=
  decode 0x00000000#32 = .ok .nop ∧ decode 0x00000001#32 = .ok .henc ∧
  decode 0x00000503#32 = .ok (.f32enc 5) ∧ decode 0x00001F04#32 = .ok (.f32dec 31) ∧
  decode 0x00000D06#32 = .ok (.u16dec 13) ∧ decode 0x00000008#32 = .ok .plddec ∧
  decode 0x0000000A#32 = .ok .pktdec ∧ decode 0x0000010B#32 = .error .noSuchOp ∧
  decode 0x00000109#32 = .error .offNotZero ∧ decode 0x00002003#32 = .error .reservedBits

/-! ### The step (00_scope.md R3, 20_memory.md R61) -/

/-- A CMD write runs the command its word decodes to: the step is exec of that command, on the state with the write
taken off the pending list and answered (log entries 1 and 3). -/
def Obligations.StepRunsDecodedCommand : Prop :=
  ∀ (s : State) (rest : List HostEvent) (w : Word) (i : Instr),
    s.pending = .access (.wr32 0x04#7 w) :: rest → decode w = .ok i →
    step s = exec i { s with pending := rest, response := some .done }

/-- A word put where the step takes its next command is the command the step runs, whatever else is pending. (The
model's choices: that withFetchWord puts a CMD write at the head of the pending list, log entry 1; the answer `done`,
log entry 3; the numbering of the word's bits in decodeTableWord, log entry 9.) -/
def Obligations.FetchWordRunsNext : Prop :=
  ∀ (s : State) (w : Nat) (i : Instr), decodeTableWord 32 w = some i →
    step (s.withFetchWord 32 w) = exec i { s with response := some .done }

/-- The block never starts an action by itself: with no host event pending, a step changes nothing (the model's choice
of what a step without an event is: log entry 2). -/
def Obligations.IdleStepChangesNothing : Prop :=
  ∀ s : State, s.pending = [] → step s = .next s

/-! ### Control and header commands (44_control.md, 41_header.md) -/

/-- R140: NOP's word is 0 only, and any other word with OP = 0 is illegal; NOP clears STATUS and changes nothing else.
-/
def Obligations.NopOnlyClearsStatus : Prop :=
  (∀ w : Word, decode w = .ok .nop ↔ w = 0x00000000#32) ∧
  (∀ w : Word, w.toNat % 16 = 0 → w ≠ 0x00000000#32 → ¬ ∃ i, decode w = .ok i) ∧
  ∀ s : State, exec .nop s = .next { s with err := 0#3, cat := 0#3 }

/-- R114: HENC writes HB with `(PORT << 4) | CHAN` and changes nothing else but STATUS, whatever HV, HCHK and the
recognized sets are. -/
def Obligations.HencPacksHeader : Prop :=
  (∀ w : Word, decode w = .ok .henc ↔ w = 0x00000001#32) ∧
  ∀ s : State, ∃ b : Byte, exec .henc s = .next { s with hb := b, err := 0#3, cat := 0#3 } ∧
    b.toNat = 16 * s.port.toNat + s.chan.toNat

/-- R115, R113: HDEC writes PORT, CHAN and HV together from HB, or raises DecodeError(HEADER) and changes only STATUS,
exactly when HCHK = 1 and the Port or Channel is not recognized. -/
def Obligations.HdecUnpacksOrRaises : Prop :=
  (∀ w : Word, decode w = .ok .hdec ↔ w = 0x00000002#32) ∧
  ∀ s : State,
    (s.HeaderAccepted s.hb.toNat → exec .hdec s = .next { s with
      port := BitVec.ofNat 4 (s.hb.toNat / 16), chan := BitVec.ofNat 2 (s.hb.toNat % 4), hv := 1#1,
      err := 0#3, cat := 0#3 }) ∧
    (¬ s.HeaderAccepted s.hb.toNat → exec .hdec s = .next { s with err := 2#3, cat := 1#3 })

/-- R110, R112: bits 3:2 of the header byte are ignored on decode: a header byte that differs only there gives HDEC the
same result from HB, and PKTDEC the same result from `PK[0]`. -/
def Obligations.ReservedHeaderBitsIgnored : Prop :=
  (∀ (s t : State) (b : Byte), b &&& 0xF3#8 = s.hb &&& 0xF3#8 → exec .hdec s = .next t →
    exec .hdec { s with hb := b } = .next { t with hb := b }) ∧
  (∀ (s t : State) (m : Memory), ({ s with pk := m } : State).pkByte 0 &&& 0xF3#8 = s.pkByte 0 &&& 0xF3#8 →
    (∀ j, 0 < j → ({ s with pk := m } : State).pkByte j = s.pkByte j) → exec .pktdec s = .next t →
    exec .pktdec { s with pk := m } = .next { t with pk := m })

/-- R116 (an inference the spec marks as derived from R111 to R113): HENC then HDEC, with HB unchanged between, restores
PORT and CHAN and sets HV, and raises exactly for the pairs that are not recognized under HCHK = 1. -/
def Obligations.HeaderRoundTrip : Prop :=
  ∀ s t u : State, exec .henc s = .next t → u.hb = t.hb →
    ((u.hchk = 0#1 ∨ (u.portOk.getLsbD s.port.toNat = true ∧ u.chanOk.getLsbD s.chan.toNat = true)) →
      exec .hdec u = .next { u with port := s.port, chan := s.chan, hv := 1#1, err := 0#3, cat := 0#3 }) ∧
    (¬ (u.hchk = 0#1 ∨ (u.portOk.getLsbD s.port.toNat = true ∧ u.chanOk.getLsbD s.chan.toNat = true)) →
      exec .hdec u = .next { u with err := 2#3, cat := 1#3 })

/-- R117 (marked derived from R111 and R112): HENC is injective in (PORT, CHAN) and always leaves bits 3:2 of HB clear,
and HDEC followed by HENC clears bits 3:2 of HB and keeps its other bits. -/
def Obligations.HeaderEncodeInjectiveNotOnto : Prop :=
  (∀ s t s' t' : State, exec .henc s = .next t → exec .henc s' = .next t' →
    t.hb &&& 0x0C#8 = 0#8 ∧ (t.hb = t'.hb → s.port = s'.port ∧ s.chan = s'.chan)) ∧
  (∀ s t u : State, exec .hdec s = .next t → t.err = 0#3 → exec .henc t = .next u → u.hb = s.hb &&& 0xF3#8)

/-! ### Field codec primitives (40_field_codec.md) -/

/-- R101: F32ENC stores the four bytes of FV at `PK[off ..]` in the byte order of ENDIAN and changes nothing else but
STATUS; past LEN it raises EncodeError(FLOAT32) and changes only STATUS. -/
def Obligations.F32encStoresOrRaises : Prop :=
  ∀ (off : Nat) (s : State), off < 32 → s.Inv →
    (∀ w : Word, decode w = .ok (.f32enc off) ↔ w = BitVec.ofNat 32 (256 * off + 3)) ∧
    (off + 4 ≤ s.len.toNat → ∃ t, exec (.f32enc off) s = .next t ∧
      t = { s with pk := t.pk, err := 0#3, cat := 0#3 } ∧
      (∀ k < 4, t.pkNat (off + k) = wireByte s.endian 4 s.fv.toNat k) ∧
      (∀ j, j < off ∨ off + 4 ≤ j → t.pkByte j = s.pkByte j)) ∧
    (s.len.toNat < off + 4 → exec (.f32enc off) s = .next { s with err := 3#3, cat := 3#3 })

/-- R102: F32DEC loads FV from `PK[off .. off+3]` in the byte order of ENDIAN and changes nothing else but STATUS; past
LEN it raises DecodeError(FLOAT32) and changes only STATUS. -/
def Obligations.F32decLoadsOrRaises : Prop :=
  ∀ (off : Nat) (s : State), off < 32 → s.Inv →
    (∀ w : Word, decode w = .ok (.f32dec off) ↔ w = BitVec.ofNat 32 (256 * off + 4)) ∧
    (off + 4 ≤ s.len.toNat → ∃ v : Word, exec (.f32dec off) s = .next { s with fv := v, err := 0#3, cat := 0#3 } ∧
      v.toNat = wireValue s.endian 4 (fun k => s.pkNat (off + k))) ∧
    (s.len.toNat < off + 4 → exec (.f32dec off) s = .next { s with err := 2#3, cat := 3#3 })

/-- R103: U16ENC stores the two bytes of `FV[15:0]` at `PK[off ..]` in the byte order of ENDIAN, ignoring `FV[31:16]`,
and changes nothing else but STATUS; past LEN it raises EncodeError(UINT16) and changes only STATUS. -/
def Obligations.U16encStoresOrRaises : Prop :=
  ∀ (off : Nat) (s : State), off < 32 → s.Inv →
    (∀ w : Word, decode w = .ok (.u16enc off) ↔ w = BitVec.ofNat 32 (256 * off + 5)) ∧
    (off + 2 ≤ s.len.toNat → ∃ t, exec (.u16enc off) s = .next t ∧
      t = { s with pk := t.pk, err := 0#3, cat := 0#3 } ∧
      (∀ k < 2, t.pkNat (off + k) = wireByte s.endian 2 (s.fv.toNat % 2 ^ 16) k) ∧
      (∀ j, j < off ∨ off + 2 ≤ j → t.pkByte j = s.pkByte j)) ∧
    (s.len.toNat < off + 2 → exec (.u16enc off) s = .next { s with err := 3#3, cat := 4#3 })

/-- R104: U16DEC loads FV, zero-extended, from `PK[off .. off+1]` in the byte order of ENDIAN and changes nothing else
but STATUS; past LEN it raises DecodeError(UINT16) and changes only STATUS. -/
def Obligations.U16decLoadsOrRaises : Prop :=
  ∀ (off : Nat) (s : State), off < 32 → s.Inv →
    (∀ w : Word, decode w = .ok (.u16dec off) ↔ w = BitVec.ofNat 32 (256 * off + 6)) ∧
    (off + 2 ≤ s.len.toNat → ∃ v : Word, exec (.u16dec off) s = .next { s with fv := v, err := 0#3, cat := 0#3 } ∧
      v.toNat = wireValue s.endian 2 (fun k => s.pkNat (off + k))) ∧
    (s.len.toNat < off + 2 → exec (.u16dec off) s = .next { s with err := 2#3, cat := 4#3 })

/-- R12, an inference the spec itself marks as derived from the two definitions: `value_of(bytes_of(v, n, E), E) = v`,
for every width and both byte orders. -/
def Obligations.ValueOfBytesOf : Prop :=
  ∀ (n : Nat) (v : BitVec (8 * n)) (e : ByteOrder), valueOf (8 * n) (bytesOf n v e) e = v

/-- R105 (marked derived from R100 to R104 and R12): after a field encode that completes, a field decode of the same
width at the same offset, in any later state with the same LEN, ENDIAN and bytes of the field, completes and sets FV to
the encoded value. -/
def Obligations.FieldRoundTrip : Prop :=
  ∀ (off : Nat) (s t u : State), s.Inv → t.err = 0#3 → u.len = t.len → u.endian = t.endian →
    (exec (.f32enc off) s = .next t → (∀ k < 4, u.pkByte (off + k) = t.pkByte (off + k)) →
      exec (.f32dec off) u = .next { u with fv := s.fv, err := 0#3, cat := 0#3 }) ∧
    (exec (.u16enc off) s = .next t → (∀ k < 2, u.pkByte (off + k) = t.pkByte (off + k)) →
      exec (.u16dec off) u = .next { u with fv := (s.fv.extractLsb' 0 16).setWidth 32, err := 0#3, cat := 0#3 })

/-- R106 (marked derived from R12): a field decode with the other byte order gives the field's bytes in reverse. -/
def Obligations.OtherByteOrderReversesField : Prop :=
  ∀ (off : Nat) (s t u : State), s.Inv → t.err = 0#3 → u.len = t.len → u.endian ≠ t.endian →
    (exec (.f32enc off) s = .next t → (∀ k < 4, u.pkByte (off + k) = t.pkByte (off + k)) →
      ∃ v : Word, exec (.f32dec off) u = .next { u with fv := v, err := 0#3, cat := 0#3 } ∧
        ∀ k < 4, v.extractLsb' (8 * k) 8 = s.fv.extractLsb' (8 * (3 - k)) 8) ∧
    (exec (.u16enc off) s = .next t → (∀ k < 2, u.pkByte (off + k) = t.pkByte (off + k)) →
      ∃ v : Word, exec (.u16dec off) u = .next { u with fv := v, err := 0#3, cat := 0#3 } ∧
        v.extractLsb' 0 8 = s.fv.extractLsb' 8 8 ∧ v.extractLsb' 8 8 = s.fv.extractLsb' 0 8 ∧
        v.extractLsb' 16 16 = 0#16)

/-! ### Commander payload (42_payload.md) -/

/-- R123: PLDENC stores the 14 payload bytes at `PK[0..13]`, sets LEN to 14, and changes nothing else but STATUS. -/
def Obligations.PldencStoresPayload : Prop :=
  (∀ w : Word, decode w = .ok .pldenc ↔ w = 0x00000007#32) ∧
  ∀ s : State, s.Inv → ∃ t, exec .pldenc s = .next t ∧
    t = { s with pk := t.pk, len := 14#6, err := 0#3, cat := 0#3 } ∧
    (∀ k < 14, t.pkNat k = s.payloadWireByte k) ∧ (∀ j, 14 ≤ j → t.pkByte j = s.pkByte j)

/-- R124: PLDDEC with LEN = 14 loads ROLL, PITCH, YAW and THRUST together and sets PV; with any other LEN it raises
ValidationError(PAYLOAD_LENGTH) and changes only STATUS. -/
def Obligations.PlddecLoadsOrRaises : Prop :=
  (∀ w : Word, decode w = .ok .plddec ↔ w = 0x00000008#32) ∧
  ∀ s : State,
    (s.len = 14#6 → ∃ t, exec .plddec s = .next t ∧ t = { s with
        roll := t.roll, pitch := t.pitch, yaw := t.yaw, thrust := t.thrust, pv := 1#1, err := 0#3, cat := 0#3 } ∧
      t.HoldsPayloadOf s 0) ∧
    (s.len ≠ 14#6 → exec .plddec s = .next { s with err := 1#3, cat := 2#3 })

/-- R126 (marked derived from R124 and R13): PLDDEC with LEN 13 or 15 raises ValidationError(PAYLOAD_LENGTH) and leaves
the payload registers and PV. -/
def Obligations.ThirteenOrFifteenBytesRejected : Prop :=
  ∀ s : State, (s.len = 13#6 ∨ s.len = 15#6) → ∃ t, exec .plddec s = .next t ∧ t.err = 1#3 ∧ t.cat = 2#3 ∧
    t.roll = s.roll ∧ t.pitch = s.pitch ∧ t.yaw = s.yaw ∧ t.thrust = s.thrust ∧ t.pv = s.pv

/-- R125 (marked derived from R121 to R124 and R12): PLDENC then PLDDEC, with LEN, ENDIAN and `PK[0..13]` unchanged
between, never raises, gives the payload registers the values they had, and sets PV. -/
def Obligations.PayloadRoundTrip : Prop :=
  ∀ s t u : State, s.Inv → exec .pldenc s = .next t → u.len = t.len → u.endian = t.endian →
    (∀ k < 14, u.pkByte k = t.pkByte k) →
    exec .plddec u = .next { u with
      roll := s.roll, pitch := s.pitch, yaw := s.yaw, thrust := s.thrust, pv := 1#1, err := 0#3, cat := 0#3 }

/-! ### Packet framing (43_packet.md) -/

/-- R131: PKTENC writes the header byte if HV = 1, then the payload bytes if KIND = 0 and PV = 1, sets LEN to their
number, and changes nothing else but STATUS. -/
def Obligations.PktencFramesPacket : Prop :=
  (∀ w : Word, decode w = .ok .pktenc ↔ w = 0x00000009#32) ∧
  ∀ s : State, s.Inv → ∃ (h p : Nat) (t : State),
    h = (if s.hv = 1#1 then 1 else 0) ∧ p = (if s.kind = 0#1 ∧ s.pv = 1#1 then 14 else 0) ∧
    exec .pktenc s = .next t ∧
    t = { s with pk := t.pk, len := BitVec.ofNat 6 (h + p), err := 0#3, cat := 0#3 } ∧
    (h = 1 → t.pkNat 0 = 16 * s.port.toNat + s.chan.toNat) ∧
    (∀ k < p, t.pkNat (h + k) = s.payloadWireByte k) ∧ (∀ j, h + p ≤ j → t.pkByte j = s.pkByte j)

/-- R132: PKTDEC with LEN = 0 clears HV and PV and nothing else. With LEN at least 1 it raises DecodeError(HEADER),
changing only STATUS, when the header is not accepted. With an accepted header: no payload to decode (KIND = 1, or LEN =
1) gives PORT, CHAN, HV = 1 and PV = 0; for KIND = 0, LEN = 15 decodes header and payload together and sets HV and PV,
and any other LEN above 1 raises ValidationError(PAYLOAD_LENGTH), changing only STATUS. -/
def Obligations.PktdecDecodesPacket : Prop :=
  (∀ w : Word, decode w = .ok .pktdec ↔ w = 0x0000000A#32) ∧
  ∀ s : State,
    (s.len = 0#6 → exec .pktdec s = .next { s with hv := 0#1, pv := 0#1, err := 0#3, cat := 0#3 }) ∧
    (s.len ≠ 0#6 → ¬ s.HeaderAccepted (s.pkNat 0) → exec .pktdec s = .next { s with err := 2#3, cat := 1#3 }) ∧
    (s.len ≠ 0#6 → s.HeaderAccepted (s.pkNat 0) → (s.kind = 1#1 ∨ s.len = 1#6) → exec .pktdec s = .next { s with
      port := BitVec.ofNat 4 (s.pkNat 0 / 16), chan := BitVec.ofNat 2 (s.pkNat 0 % 4), hv := 1#1, pv := 0#1,
      err := 0#3, cat := 0#3 }) ∧
    (s.kind = 0#1 → s.HeaderAccepted (s.pkNat 0) → s.len = 15#6 → ∃ t, exec .pktdec s = .next t ∧ t = { s with
        port := BitVec.ofNat 4 (s.pkNat 0 / 16), chan := BitVec.ofNat 2 (s.pkNat 0 % 4), hv := 1#1,
        roll := t.roll, pitch := t.pitch, yaw := t.yaw, thrust := t.thrust, pv := 1#1, err := 0#3, cat := 0#3 } ∧
      t.HoldsPayloadOf s 1) ∧
    (s.kind = 0#1 → s.HeaderAccepted (s.pkNat 0) → s.len ≠ 0#6 → s.len ≠ 1#6 → s.len ≠ 15#6 →
      exec .pktdec s = .next { s with err := 1#3, cat := 2#3 })

/-- R133: for KIND = 1, PKTENC stores the header byte when HV = 1 and nothing else; PKTDEC sets PV = 0 whenever it
completes, reads only `PK[0]`, and gives the same result for every LEN but 0. -/
def Obligations.HeaderOnlyKindHasNoPayload : Prop :=
  ∀ s : State, s.Inv → s.kind = 1#1 →
    (∃ t, exec .pktenc s = .next t ∧
      t = { s with pk := t.pk, len := if s.hv = 1#1 then 1#6 else 0#6, err := 0#3, cat := 0#3 } ∧
      (s.hv = 1#1 → t.pkNat 0 = 16 * s.port.toNat + s.chan.toNat) ∧
      (∀ j, s.hv = 0#1 ∨ 1 ≤ j → t.pkByte j = s.pkByte j)) ∧
    (∃ t, exec .pktdec s = .next t ∧ (t.err = 0#3 → t.pv = 0#1) ∧
      (∀ m : Memory, ({ s with pk := m } : State).pkByte 0 = s.pkByte 0 →
        exec .pktdec { s with pk := m } = .next { t with pk := m }) ∧
      (∀ n : BitVec 6, n ≠ 0#6 → s.len ≠ 0#6 → exec .pktdec { s with len := n } = .next { t with len := n }))

/-- R134 (marked derived from R131 and R132): PKTDEC with LEN = 0 gives HV = 0 and PV = 0 and never raises, whatever PK
holds, and PKTENC then gives LEN = 0 and leaves PK. -/
def Obligations.EmptyPacketRoundTrip : Prop :=
  ∀ s : State, s.len = 0#6 → ∃ t, exec .pktdec s = .next t ∧
    t = { s with hv := 0#1, pv := 0#1, err := 0#3, cat := 0#3 } ∧ exec .pktenc t = .next t

/-- R135 (marked derived): PKTENC then PKTDEC, with LEN, CTRL and the packet's bytes unchanged between, restores the
packet in exactly the cases the rule lists: a header accepted by the decoding state, or no bytes at all. An unrecognized
header raises DecodeError(HEADER); a commander payload without a header is read as a header and a 13-byte remainder and,
where that header is accepted, raises ValidationError(PAYLOAD_LENGTH). -/
def Obligations.PacketRoundTrip : Prop :=
  ∀ s t u : State, s.Inv → exec .pktenc s = .next t → u.len = t.len → u.endian = t.endian → u.hchk = t.hchk →
    u.kind = t.kind → (∀ k < t.len.toNat, u.pkByte k = t.pkByte k) →
    -- commander kind, header and payload present
    (s.kind = 0#1 → s.hv = 1#1 → s.pv = 1#1 → t.len = 15#6 ∧
      (u.HeaderAccepted (16 * s.port.toNat + s.chan.toNat) → exec .pktdec u = .next { u with
        port := s.port, chan := s.chan, hv := 1#1, roll := s.roll, pitch := s.pitch, yaw := s.yaw, thrust := s.thrust,
        pv := 1#1, err := 0#3, cat := 0#3 })) ∧
    -- header present, no payload on the wire
    (s.hv = 1#1 → (s.kind = 1#1 ∨ s.pv = 0#1) → u.HeaderAccepted (16 * s.port.toNat + s.chan.toNat) →
      exec .pktdec u = .next { u with
        port := s.port, chan := s.chan, hv := 1#1, pv := 0#1, err := 0#3, cat := 0#3 }) ∧
    -- a header the decoding state does not accept
    (s.hv = 1#1 → ¬ u.HeaderAccepted (16 * s.port.toNat + s.chan.toNat) →
      exec .pktdec u = .next { u with err := 2#3, cat := 1#3 }) ∧
    -- nothing on the wire
    (s.hv = 0#1 → (s.kind = 1#1 ∨ s.pv = 0#1) →
      exec .pktdec u = .next { u with hv := 0#1, pv := 0#1, err := 0#3, cat := 0#3 }) ∧
    -- payload without header: does not come back
    (s.hv = 0#1 → s.kind = 0#1 → s.pv = 1#1 →
      (u.HeaderAccepted (s.payloadWireByte 0) → exec .pktdec u = .next { u with err := 1#3, cat := 2#3 }) ∧
      (¬ u.HeaderAccepted (s.payloadWireByte 0) → exec .pktdec u = .next { u with err := 2#3, cat := 1#3 }))

/-- R136 (marked derived from R132, R115 and R124): the packet codec never consults HB or FV, and what PKTDEC decodes is
what HDEC gives from the same header byte and PLDDEC from the same 14 bytes. -/
def Obligations.PacketCodecMatchesParts : Prop :=
  (∀ (s t : State) (b : Byte) (v : Word), exec .pktdec s = .next t →
    exec .pktdec { s with hb := b, fv := v } = .next { t with hb := b, fv := v }) ∧
  (∀ (s t : State) (b : Byte) (v : Word), exec .pktenc s = .next t →
    exec .pktenc { s with hb := b, fv := v } = .next { t with hb := b, fv := v }) ∧
  (∀ s t u v : State, exec .pktdec s = .next t → t.err = 0#3 → s.len ≠ 0#6 → u.hb = s.pkByte 0 →
    exec .hdec u = .next v → v.err = 0#3 → t.port = v.port ∧ t.chan = v.chan ∧ t.hv = v.hv) ∧
  (∀ s t u v : State, exec .pktdec s = .next t → t.err = 0#3 → t.pv = 1#1 → s.len = 15#6 → u.endian = s.endian →
    u.len = 14#6 → (∀ k < 14, u.pkByte k = s.pkByte (1 + k)) → exec .plddec u = .next v →
    t.roll = v.roll ∧ t.pitch = v.pitch ∧ t.yaw = v.yaw ∧ t.thrust = v.thrust)

/-! ### Errors (60_exceptions.md) and what commands read and write (10_state.md) -/

/-- R159, R13: a command that raises leaves every register and PK byte as it was, and writes only STATUS; a command that
does not raise leaves STATUS 0. -/
def Obligations.FailedCommandChangesOnlyStatus : Prop :=
  ∀ (i : Instr) (s t : State), exec i s = .next t →
    (t.err ≠ 0#3 → t = { s with err := t.err, cat := t.cat }) ∧ (t.err = 0#3 → t.cat = 0#3)

/-- R151, R152, R153: each error of a command has exactly the listed causes; PKTDEC's length is looked at only once its
header is accepted (R157). -/
def Obligations.ErrorsHaveExactlyTheListedCauses : Prop :=
  ∀ (i : Instr) (s t : State), exec i s = .next t →
    (t.err = 1#3 ↔ (i = .plddec ∧ s.len ≠ 14#6) ∨
      (i = .pktdec ∧ s.kind = 0#1 ∧ 2 ≤ s.len.toNat ∧ s.len.toNat - 1 ≠ 14 ∧ s.HeaderAccepted (s.pkNat 0))) ∧
    (t.err = 2#3 ↔ (i = .hdec ∧ ¬ s.HeaderAccepted s.hb.toNat) ∨
      (i = .pktdec ∧ s.len ≠ 0#6 ∧ ¬ s.HeaderAccepted (s.pkNat 0)) ∨
      (∃ off, i = .f32dec off ∧ s.len.toNat < off + 4) ∨ (∃ off, i = .u16dec off ∧ s.len.toNat < off + 2)) ∧
    (t.err = 3#3 ↔ (∃ off, i = .f32enc off ∧ s.len.toNat < off + 4) ∨
      (∃ off, i = .u16enc off ∧ s.len.toNat < off + 2)) ∧
    (t.err = 1#3 → t.cat = 2#3) ∧
    (t.err = 2#3 → t.cat = match i with | .f32dec _ => 3#3 | .u16dec _ => 4#3 | _ => 1#3) ∧
    (t.err = 3#3 → t.cat = match i with | .f32enc _ => 3#3 | _ => 4#3) ∧
    (t.err = 0#3 ∨ t.err = 1#3 ∨ t.err = 2#3 ∨ t.err = 3#3)

/-- R160, R30: every command writes STATUS whole: its outcome does not depend on what STATUS held. -/
def Obligations.CommandsIgnoreOldStatus : Prop :=
  ∀ (i : Instr) (s : State) (e c : BitVec 3), exec i { s with err := e, cat := c } = exec i s

/-- R30: nothing but a command writes STATUS: every host access other than a CMD write leaves it. -/
def Obligations.OnlyCommandsWriteStatus : Prop :=
  ∀ (s t : State) (x : HostAccess) (rest : List HostEvent), s.pending = .access x :: rest →
    (∀ w, x ≠ .wr32 0x04#7 w) → step s = .next t → t.err = s.err ∧ t.cat = s.cat

/-- R47, a table the spec itself marks as derived from the command rules: a command leaves every register that its row
does not mark as written. (It leaves the model's own fields as well, the pending list, log entry 1, and the answer to
the host, log entry 3: the CMD write sets both before the command runs.) -/
def Obligations.CommandsWriteOnlyTheirRow : Prop :=
  ∀ (i : Instr) (s t : State), exec i s = .next t →
    (t.endian = s.endian ∧ t.hchk = s.hchk ∧ t.kind = s.kind ∧ t.portOk = s.portOk ∧ t.chanOk = s.chanOk ∧
      t.pending = s.pending ∧ t.response = s.response) ∧
    (i ≠ .hdec → i ≠ .pktdec → t.port = s.port ∧ t.chan = s.chan ∧ t.hv = s.hv) ∧
    (i ≠ .henc → t.hb = s.hb) ∧
    ((∀ off, i ≠ .f32dec off ∧ i ≠ .u16dec off) → t.fv = s.fv) ∧
    (i ≠ .plddec → i ≠ .pktdec →
      t.roll = s.roll ∧ t.pitch = s.pitch ∧ t.yaw = s.yaw ∧ t.thrust = s.thrust ∧ t.pv = s.pv) ∧
    (i ≠ .pldenc → i ≠ .pktenc → t.len = s.len) ∧
    (i ≠ .pldenc → i ≠ .pktenc → (∀ off, i ≠ .f32enc off ∧ i ≠ .u16enc off) → t.pk = s.pk)

/-- R33, R34: no command but HENC and HDEC reads or writes HB, and none but the field codec primitives reads or writes
FV: under another HB or FV their outcome is the same, with that HB or FV kept. -/
def Obligations.OthersIgnoreHeaderByteAndFieldValue : Prop :=
  ∀ (i : Instr) (s t : State), exec i s = .next t →
    (∀ b : Byte, i ≠ .henc → i ≠ .hdec → exec i { s with hb := b } = .next { t with hb := b }) ∧
    (∀ v : Word, (∀ off, i ≠ .f32enc off ∧ i ≠ .f32dec off ∧ i ≠ .u16enc off ∧ i ≠ .u16dec off) →
      exec i { s with fv := v } = .next { t with fv := v })

/-- R25: KIND does not affect any command but PKTENC and PKTDEC. -/
def Obligations.KindAffectsOnlyPackets : Prop :=
  ∀ (i : Instr) (s t : State) (k : BitVec 1), i ≠ .pktenc → i ≠ .pktdec → exec i s = .next t →
    exec i { s with kind := k } = .next { t with kind := k }

/-- R23, R64: ENDIAN does not affect the header commands. -/
def Obligations.EndianDoesNotAffectHeader : Prop :=
  ∀ (i : Instr) (s t : State) (e : BitVec 1), i = .nop ∨ i = .henc ∨ i = .hdec → exec i s = .next t →
    exec i { s with endian := e } = .next { t with endian := e }

/-- R39, R40: PORT_OK and CHAN_OK are read only by HDEC and PKTDEC, and only when HCHK = 1. -/
def Obligations.RecognizedSetsReadOnlyWhenChecked : Prop :=
  ∀ (i : Instr) (s t : State) (p : BitVec 16) (c : BitVec 4), (i ≠ .hdec ∧ i ≠ .pktdec) ∨ s.hchk ≠ 1#1 →
    exec i s = .next t → exec i { s with portOk := p, chanOk := c } = .next { t with portOk := p, chanOk := c }

/-- R43: only PKTENC reads HV and PV: every other command's outcome is the same under other presence bits, except that
the bits it does not write keep the values they are given. -/
def Obligations.OnlyPktencReadsPresence : Prop :=
  ∀ (i : Instr) (s t : State) (h p : BitVec 1), i ≠ .pktenc → exec i s = .next t →
    ∃ h' p', exec i { s with hv := h, pv := p } = .next { t with hv := h', pv := p' } ∧
      (h' = h ∨ h' = t.hv) ∧ (p' = p ∨ p' = t.pv)

/-- R38, R102: the bytes of PK at or beyond LEN are not part of the buffer: no decode command's registers depend on
them. -/
def Obligations.DecodersIgnoreBytesBeyondLen : Prop :=
  ∀ (i : Instr) (s t : State) (m : Memory),
    (∃ off, i = .f32dec off ∨ i = .u16dec off) ∨ i = .plddec ∨ i = .pktdec →
    (∀ k < s.len.toNat, ({ s with pk := m } : State).pkByte k = s.pkByte k) → exec i s = .next t →
    exec i { s with pk := m } = .next { t with pk := m }

/-- R123, R131: what PLDENC and PKTENC put on the wire does not depend on what PK or LEN held before. -/
def Obligations.EncodersIgnoreOldBuffer : Prop :=
  ∀ (i : Instr) (s t s' t' : State), i = .pldenc ∨ i = .pktenc → s.Inv → s'.Inv →
    s' = { s with pk := s'.pk, len := s'.len } → exec i s = .next t → exec i s' = .next t' →
    t'.len = t.len ∧ ∀ k < t.len.toNat, t'.pkByte k = t.pkByte k

/-! ### The host port (20_memory.md) -/

/-- R53, R52: an access the port does not admit answers BusError, reads nothing and changes no state; an access it
admits never answers BusError. -/
def Obligations.BusErrorExactlyWhenNotAdmitted : Prop :=
  ∀ (s : State) (x : HostAccess) (rest : List HostEvent), s.pending = .access x :: rest →
    (admits x = false → step s = .next { s with pending := rest, response := some .busError }) ∧
    (admits x = true → ∀ t, step s = .next t → t.response ≠ some .busError)

/-- R54: RD32 of a register answers its value with every reserved bit 0, and of CMD 0; a read of any kind changes
nothing of the block's state, and the same read again gives the same answer. -/
def Obligations.ReadsAnswerAndChangeNothing : Prop :=
  (∀ (s : State) (r : Reg) (rest : List HostEvent), s.pending = .access (.rd32 r.addr) :: rest →
    ∃ v : Word, step s = .next { s with pending := rest, response := some (.word v) } ∧
      v.toNat = match r with
        | .ctrl => s.endian.toNat + 2 * s.hchk.toNat + 4 * s.kind.toNat
        | .cmd => 0
        | .status => s.err.toNat + 16 * s.cat.toNat
        | .hdr => s.port.toNat + 16 * s.chan.toNat + 256 * s.hv.toNat
        | .hb => s.hb.toNat
        | .fv => s.fv.toNat
        | .roll => s.roll.toNat
        | .pitch => s.pitch.toNat
        | .yaw => s.yaw.toNat
        | .thrust => s.thrust.toNat
        | .payv => s.pv.toNat
        | .pklen => s.len.toNat
        | .portOk => s.portOk.toNat
        | .chanOk => s.chanOk.toNat) ∧
  ∀ (s : State) (x : HostAccess) (rest : List HostEvent), (∃ a, x = .rd32 a ∨ x = .rd8 a) →
    s.pending = .access x :: .access x :: rest →
    ∃ a : Response, step s = .next { s with pending := .access x :: rest, response := some a } ∧
      step { s with pending := .access x :: rest, response := some a }
        = .next { s with pending := rest, response := some a }

/-- R55, R22, R27, R32 to R40: WR32 of a register other than CMD writes exactly the fields its rule makes writable. (The
answer `done` is the model's choice: log entry 3.) -/
def Obligations.RegisterWritesItsFields : Prop :=
  ∀ (s : State) (r : Reg) (w : Word) (rest : List HostEvent), r ≠ .cmd →
    s.pending = .access (.wr32 r.addr w) :: rest →
    step s = .next
      (let u : State := { s with pending := rest, response := some .done }
       match r with
        | .ctrl => { u with endian := BitVec.ofNat 1 w.toNat, hchk := BitVec.ofNat 1 (w.toNat / 2),
                            kind := BitVec.ofNat 1 (w.toNat / 4) }
        | .cmd => u
        | .status => u
        | .hdr => { u with port := BitVec.ofNat 4 w.toNat, chan := BitVec.ofNat 2 (w.toNat / 16),
                           hv := BitVec.ofNat 1 (w.toNat / 256) }
        | .hb => { u with hb := BitVec.ofNat 8 w.toNat }
        | .fv => { u with fv := w }
        | .roll => { u with roll := w }
        | .pitch => { u with pitch := w }
        | .yaw => { u with yaw := w }
        | .thrust => { u with thrust := BitVec.ofNat 16 w.toNat }
        | .payv => { u with pv := BitVec.ofNat 1 w.toNat }
        | .pklen => { u with len := BitVec.ofNat 6 (min (w.toNat % 64) 32) }
        | .portOk => { u with portOk := BitVec.ofNat 16 w.toNat }
        | .chanOk => { u with chanOk := BitVec.ofNat 4 w.toNat })

/-- R42: a register written and then read gives the word written with the reserved bits 0. -/
def Obligations.WrittenRegisterReadsBackMasked : Prop :=
  ∀ (s : State) (r : Reg) (w : Word) (rest : List HostEvent),
    s.pending = .access (.wr32 r.addr w) :: .access (.rd32 r.addr) :: rest →
    r ≠ .cmd → r ≠ .status → r ≠ .pklen →
    ∃ t u, step s = .next t ∧ step t = .next u ∧ u.response = some (.word (w &&& (match r with
      | .ctrl => 0x00000007#32
      | .hdr => 0x0000013F#32
      | .hb => 0x000000FF#32
      | .thrust => 0x0000FFFF#32
      | .payv => 0x00000001#32
      | .portOk => 0x0000FFFF#32
      | .chanOk => 0x0000000F#32
      | _ => 0xFFFFFFFF#32)))

/-- R56: RD32 of an aligned PK address answers the four bytes from that address on, the lowest address in bits 7:0, and
WR32 stores the word's bytes there in that order and changes no other byte and no register (R58); whatever ENDIAN is. -/
def Obligations.PkWordAccessIsLittleEndian : Prop :=
  ∀ (s : State) (i : Nat) (rest : List HostEvent), s.Inv → i < 8 →
    (s.pending = .access (.rd32 (BitVec.ofNat 7 (0x40 + 4 * i))) :: rest →
      ∃ v : Word, step s = .next { s with pending := rest, response := some (.word v) } ∧
        v.toNat = s.pkNat (4 * i) + 256 * s.pkNat (4 * i + 1) + 65536 * s.pkNat (4 * i + 2)
          + 16777216 * s.pkNat (4 * i + 3)) ∧
    (∀ w : Word, s.pending = .access (.wr32 (BitVec.ofNat 7 (0x40 + 4 * i)) w) :: rest →
      ∃ t, step s = .next t ∧ t = { s with pk := t.pk, pending := rest, response := t.response } ∧
        (∀ j < 4, t.pkNat (4 * i + j) = w.toNat / 256 ^ j % 256) ∧
        (∀ j, j < 4 * i ∨ 4 * i + 4 ≤ j → t.pkByte j = s.pkByte j))

/-- R57, R58: RD8 of `0x40 + i` answers `PK[i]`; WR8 of `b` to it sets `PK[i]` to `b` and changes no other byte and no
register. -/
def Obligations.PkByteAccess : Prop :=
  ∀ (s : State) (i : Nat) (b : Byte) (rest : List HostEvent), s.Inv → i < 32 →
    (s.pending = .access (.rd8 (BitVec.ofNat 7 (0x40 + i))) :: rest →
      step s = .next { s with pending := rest, response := some (.byte (s.pkByte i)) }) ∧
    (s.pending = .access (.wr8 (BitVec.ofNat 7 (0x40 + i)) b) :: rest →
      ∃ t, step s = .next t ∧ t = { s with pk := t.pk, pending := rest, response := t.response } ∧
        t.pkByte i = b ∧ ∀ j, j ≠ i → t.pkByte j = s.pkByte j)

/-! ### Reset (70_reset_and_hazards.md) and the whole machine -/

/-- R180: a reset gives every piece of state its value in the table, from any state, and is taken between two host
accesses: it is an event of its own. -/
def Obligations.ResetGivesTheTable : Prop :=
  ∀ (s : State) (rest : List HostEvent), s.pending = .reset :: rest →
    ∃ t, step s = .next t ∧
      t.endian = 0#1 ∧ t.hchk = 0#1 ∧ t.kind = 0#1 ∧ t.err = 0#3 ∧ t.cat = 0#3 ∧ t.port = 0#4 ∧ t.chan = 0#2 ∧
      t.hv = 0#1 ∧ t.hb = 0#8 ∧ t.fv = 0#32 ∧ t.roll = 0#32 ∧ t.pitch = 0#32 ∧ t.yaw = 0#32 ∧ t.thrust = 0#16 ∧
      t.pv = 0#1 ∧ t.len = 0#6 ∧ t.portOk = 0xFFFF#16 ∧ t.chanOk = 0xF#4 ∧ ∀ i < 32, t.pkByte i = 0#8

/-- The machine right after reset is the table of R180, and reads so through the host port. -/
def Obligations.ResetStateReadsAsTheTable : Prop :=
  (∀ r : Reg, readReg r State.reset = match r with
    | .portOk => 0x0000FFFF#32
    | .chanOk => 0x0000000F#32
    | _ => 0#32) ∧
  ∀ i < 32, State.reset.pkByte i = 0#8

/-- The invariant holds right after reset. -/
def Obligations.ResetHasInvariant : Prop := State.reset.Inv

/-- Every step keeps the invariant: PK's canonical form, LEN at most 32, STATUS one of the listed pairs (that the
commands and the host leave STATUS so is read off R28 to R30 and R151 to R154). -/
def Obligations.StepKeepsInvariant : Prop :=
  ∀ s t : State, s.Inv → step s = .next t → t.Inv

/-- From every state that meets the invariant, whatever the host does next, the machine goes on: no step faults or
refuses, and the invariant holds again. -/
def Obligations.EveryStepGoesOn : Prop :=
  ∀ s : State, s.Inv → GoesOn (step s)

/-- From every state that meets the invariant, every command answers a next state, whatever its operand. -/
def Obligations.EveryCommandAnswers : Prop :=
  ∀ (i : Instr) (s : State), s.Inv → ∃ t, exec i s = .next t ∧ (t.err, t.cat) ∈ legalStatus

/-- Any number of steps from a state that meets the invariant, whatever the host has pending, never stops. -/
def Obligations.RunNeverStops : Prop :=
  ∀ (n : Nat) (s : State), s.Inv → GoesOn (core.run n s)

/-- R60, R59: the host's events take effect one at a time, in the host's order: a step has the effect of the first
pending event and leaves the rest pending; a run as long as a first group of events has the effects of the group's events
in their order, none of which depends on what is still pending; and the next group's steps follow from there. (The list of
pending events is the model's form of the host: log entry 1; a reset as one of them: log entry 5.) -/
def Obligations.EventsTakeEffectInOrder : Prop :=
  (∀ (e : HostEvent) (rest : List HostEvent) (s : State), s.pending = e :: rest →
    step s = hostEvent e { s with pending := rest } ∧ ∀ t, step s = .next t → t.pending = rest) ∧
  ∀ (es rest : List HostEvent) (s : State), s.pending = es ++ rest →
    core.run es.length s = applyInOrder es { s with pending := rest } ∧
    ∀ (n : Nat) (t : State), core.run es.length s = .next t →
      t.pending = rest ∧ core.run (es.length + n) s = core.run n t

/-! ### The assembler (30_encoding.md R77 to R80) -/

/-- R77, R79: a command mnemonic stands for the CMD write of its word, which runs the command (R70, R61); the assembler
refuses an offset above 31. (The pending list, log entry 1, and the answer `done`, log entry 3, are the model's choices;
statements as abstract terms: log entry 13.) -/
def Obligations.AssembledCommandRuns : Prop :=
  ∀ (i : Instr) (s : State) (rest : List HostEvent),
    (i.wf = true → ∃ es, (Statement.command i).assemble = some es ∧
      (s.pending = es ++ rest → step s = exec i { s with pending := rest, response := some .done })) ∧
    (i.wf = false → (Statement.command i).assemble = none)

/-- R80, R32: SETHDR p, c sets PORT, CHAN and HV and changes no other register; without a Channel it takes 0; the
assembler refuses p above 15 and c above 3. (The pending list, log entry 1, and the answer `done`, log entry 3, are the
model's choices; statements as abstract terms: log entry 13.) -/
def Obligations.SethdrConstructsHeader : Prop :=
  ∀ (s : State) (p c : Nat) (rest : List HostEvent),
    ((p < 16 ∧ c < 4) → ∃ es, (Statement.setHdr p c).assemble = some es ∧ (s.pending = es ++ rest →
      step s = .next { s with pending := rest, response := some .done,
                              port := BitVec.ofNat 4 p, chan := BitVec.ofNat 2 c, hv := 1#1 })) ∧
    (¬ (p < 16 ∧ c < 4) → (Statement.setHdr p c).assemble = none) ∧
    (Statement.setHdrPort p).assemble = (Statement.setHdr p 0).assemble

/-- R80, R57, R38: LOADPK loads its bytes into `PK[0 ..]`, sets LEN to their number, and changes nothing else, for every
list of at most 32 bytes; the assembler refuses a longer one (DEDUCED from 'n from 0 to 32': log entry 13). (The pending
list, log entry 1, and the answer `done`, log entry 3, are the model's choices.) -/
def Obligations.LoadpkLoadsBuffer : Prop :=
  ∀ (s : State) (bs : List Byte) (rest : List HostEvent), s.Inv →
    (bs.length ≤ 32 → ∃ es, (Statement.loadPk bs).assemble = some es ∧ (s.pending = es ++ rest →
      ∃ t, core.run es.length s = .next t ∧
        t = { s with pk := t.pk, len := BitVec.ofNat 6 bs.length, pending := rest, response := some .done } ∧
        (∀ (k : Nat) (h : k < bs.length), t.pkByte k = bs[k]) ∧
        (∀ j, bs.length ≤ j → t.pkByte j = s.pkByte j))) ∧
    (32 < bs.length → (Statement.loadPk bs).assemble = none)
end

