-- ==== Sys2Proof/Laws/Codec.lean ====
section
/-! SUPPORT. The byte codecs: lengths, single bytes, and the header byte. -/

namespace Sys2Proof.Machine

@[simp] theorem bytesOf_length {w : Nat} (n : Nat) (v : BitVec w) (e : ByteOrder) : (bytesOf n v e).length = n := by
  simp [bytesOf]

theorem bytesOf_getElem {w : Nat} (n : Nat) (v : BitVec w) (e : ByteOrder) (k : Nat) (h : k < (bytesOf n v e).length) :
    (bytesOf n v e)[k] = byteAt n v e k := by
  simp [bytesOf]

@[simp] theorem State.cmdBytes_length (s : State) (e : ByteOrder) : (s.cmdBytes e).length = 14 := by
  simp [State.cmdBytes]

theorem bytesOf_four (v : Word) (e : ByteOrder) :
    bytesOf 4 v e = [byteAt 4 v e 0, byteAt 4 v e 1, byteAt 4 v e 2, byteAt 4 v e 3] := rfl

theorem bytesOf_two (v : BitVec 16) (e : ByteOrder) : bytesOf 2 v e = [byteAt 2 v e 0, byteAt 2 v e 1] := rfl

/-- The number that a list of bytes stands for, least significant byte first. -/
def natLe : List Byte → Nat
  | [] => 0
  | b :: bs => b.toNat + 256 * natLe bs

theorem natLe_lt : ∀ bs : List Byte, natLe bs < 2 ^ (8 * bs.length)
  | [] => by simp [natLe]
  | b :: bs => by
    have hb := b.isLt
    have ih := natLe_lt bs
    have e : 2 ^ (8 * (b :: bs).length) = 256 * 2 ^ (8 * bs.length) := by
      rw [List.length_cons, show 8 * (bs.length + 1) = 8 * bs.length + 8 by ring, pow_add, mul_comm]; norm_num
    rw [natLe, e]; omega

/-- The little-endian value of bytes that fit the width, as a number (R12). -/
theorem valueLe_toNat (w : Nat) : ∀ bs : List Byte, 8 * bs.length ≤ w → (valueLe w bs).toNat = natLe bs
  | [], _ => by simp [valueLe, natLe]
  | b :: bs, h => by
    rw [List.length_cons] at h
    have hb := b.isLt
    have hn := natLe_lt bs
    have e : 256 * 2 ^ (8 * bs.length) ≤ 2 ^ w := by
      rw [show (256 : Nat) = 2 ^ 8 from rfl, ← pow_add]; exact Nat.pow_le_pow_right (by decide) (by omega)
    have hw : 2 ^ 8 ≤ 2 ^ w := Nat.pow_le_pow_right (by decide) (by omega)
    rw [valueLe, BitVec.toNat_or, BitVec.toNat_shiftLeft, valueLe_toNat w bs (by omega), BitVec.toNat_setWidth,
      Nat.shiftLeft_eq, Nat.mod_eq_of_lt (by omega), Nat.mod_eq_of_lt (by omega), mul_comm,
      ← Nat.two_pow_add_eq_or_of_lt hb, natLe]
    omega

/-- R12's value of a list of bytes in either byte order, as a number. -/
theorem valueOf_toNat (w : Nat) (bs : List Byte) (e : ByteOrder) (h : 8 * bs.length ≤ w) :
    (valueOf w bs e).toNat = match e with
      | .le => natLe bs
      | .be => natLe bs.reverse := by
  cases e
  · exact valueLe_toNat w bs h
  · exact valueLe_toNat w bs.reverse (by simpa using h)

theorem append_two_toNat (b0 b1 : Byte) : (b1 ++ b0).toNat = b0.toNat + 256 * b1.toNat := by
  have := b0.isLt
  rw [BitVec.toNat_append, Nat.shiftLeft_eq, mul_comm, ← Nat.two_pow_add_eq_or_of_lt this]; omega

theorem append_four_toNat (b0 b1 b2 b3 : Byte) :
    (b3 ++ b2 ++ b1 ++ b0).toNat
      = b0.toNat + 256 * b1.toNat + 65536 * b2.toNat + 16777216 * b3.toNat := by
  have h0 := b0.isLt
  have h1 := b1.isLt
  rw [BitVec.toNat_append, BitVec.toNat_append, append_two_toNat, Nat.shiftLeft_eq, Nat.shiftLeft_eq, mul_comm,
    mul_comm _ (2 ^ 8), ← Nat.two_pow_add_eq_or_of_lt h1, ← Nat.two_pow_add_eq_or_of_lt h0]
  omega

theorem hbyte_toNat (p : BitVec 4) (c : BitVec 2) : (hbyte p c).toNat = 16 * p.toNat + c.toNat := by
  have hc := c.isLt
  have e : (hbyte p c).toNat = (p.toNat <<< 2 ||| 0) <<< 2 ||| c.toNat := by
    simp only [hbyte, BitVec.toNat_append]; rfl
  rw [e, Nat.or_zero, Nat.shiftLeft_eq (p.toNat <<< 2), mul_comm _ (2 ^ 2), ← Nat.two_pow_add_eq_or_of_lt hc,
    Nat.shiftLeft_eq]
  omega

theorem hdecPort_toNat (b : Byte) : (hdecPort b).toNat = b.toNat / 16 := by
  have := b.isLt
  simp only [hdecPort, BitVec.extractLsb'_toNat, Nat.shiftRight_eq_div_pow]
  omega

theorem hdecChan_toNat (b : Byte) : (hdecChan b).toNat = b.toNat % 4 := by
  simp only [hdecChan, BitVec.extractLsb'_toNat, Nat.shiftRight_eq_div_pow]
  omega

end Sys2Proof.Machine
end

