-- ==== Sys2Proof/Laws/State.lean ====
section
/-! SUPPORT. One lemma per field per update of State, so that no proof unfolds a record update. -/

namespace Sys2Proof.Machine

@[simp] theorem State.setStatus_endian (s : State) (e c : BitVec 3) : (s.setStatus e c).endian = s.endian := rfl
@[simp] theorem State.setStatus_hchk (s : State) (e c : BitVec 3) : (s.setStatus e c).hchk = s.hchk := rfl
@[simp] theorem State.setStatus_kind (s : State) (e c : BitVec 3) : (s.setStatus e c).kind = s.kind := rfl
@[simp] theorem State.setStatus_err (s : State) (e c : BitVec 3) : (s.setStatus e c).err = e := rfl
@[simp] theorem State.setStatus_cat (s : State) (e c : BitVec 3) : (s.setStatus e c).cat = c := rfl
@[simp] theorem State.setStatus_port (s : State) (e c : BitVec 3) : (s.setStatus e c).port = s.port := rfl
@[simp] theorem State.setStatus_chan (s : State) (e c : BitVec 3) : (s.setStatus e c).chan = s.chan := rfl
@[simp] theorem State.setStatus_hv (s : State) (e c : BitVec 3) : (s.setStatus e c).hv = s.hv := rfl
@[simp] theorem State.setStatus_hb (s : State) (e c : BitVec 3) : (s.setStatus e c).hb = s.hb := rfl
@[simp] theorem State.setStatus_fv (s : State) (e c : BitVec 3) : (s.setStatus e c).fv = s.fv := rfl
@[simp] theorem State.setStatus_roll (s : State) (e c : BitVec 3) : (s.setStatus e c).roll = s.roll := rfl
@[simp] theorem State.setStatus_pitch (s : State) (e c : BitVec 3) : (s.setStatus e c).pitch = s.pitch := rfl
@[simp] theorem State.setStatus_yaw (s : State) (e c : BitVec 3) : (s.setStatus e c).yaw = s.yaw := rfl
@[simp] theorem State.setStatus_thrust (s : State) (e c : BitVec 3) : (s.setStatus e c).thrust = s.thrust := rfl
@[simp] theorem State.setStatus_pv (s : State) (e c : BitVec 3) : (s.setStatus e c).pv = s.pv := rfl
@[simp] theorem State.setStatus_len (s : State) (e c : BitVec 3) : (s.setStatus e c).len = s.len := rfl
@[simp] theorem State.setStatus_portOk (s : State) (e c : BitVec 3) : (s.setStatus e c).portOk = s.portOk := rfl
@[simp] theorem State.setStatus_chanOk (s : State) (e c : BitVec 3) : (s.setStatus e c).chanOk = s.chanOk := rfl
@[simp] theorem State.setStatus_pk (s : State) (e c : BitVec 3) : (s.setStatus e c).pk = s.pk := rfl
@[simp] theorem State.setStatus_pending (s : State) (e c : BitVec 3) : (s.setStatus e c).pending = s.pending := rfl
@[simp] theorem State.setStatus_response (s : State) (e c : BitVec 3) : (s.setStatus e c).response = s.response := rfl
@[simp] theorem State.setStatus_pkByte (s : State) (e c : BitVec 3) (i : Nat) : (s.setStatus e c).pkByte i = s.pkByte i := rfl

@[simp] theorem State.setPk_endian (s : State) (m : Memory) : (s.setPk m).endian = s.endian := rfl
@[simp] theorem State.setPk_hchk (s : State) (m : Memory) : (s.setPk m).hchk = s.hchk := rfl
@[simp] theorem State.setPk_kind (s : State) (m : Memory) : (s.setPk m).kind = s.kind := rfl
@[simp] theorem State.setPk_err (s : State) (m : Memory) : (s.setPk m).err = s.err := rfl
@[simp] theorem State.setPk_cat (s : State) (m : Memory) : (s.setPk m).cat = s.cat := rfl
@[simp] theorem State.setPk_port (s : State) (m : Memory) : (s.setPk m).port = s.port := rfl
@[simp] theorem State.setPk_chan (s : State) (m : Memory) : (s.setPk m).chan = s.chan := rfl
@[simp] theorem State.setPk_hv (s : State) (m : Memory) : (s.setPk m).hv = s.hv := rfl
@[simp] theorem State.setPk_hb (s : State) (m : Memory) : (s.setPk m).hb = s.hb := rfl
@[simp] theorem State.setPk_fv (s : State) (m : Memory) : (s.setPk m).fv = s.fv := rfl
@[simp] theorem State.setPk_roll (s : State) (m : Memory) : (s.setPk m).roll = s.roll := rfl
@[simp] theorem State.setPk_pitch (s : State) (m : Memory) : (s.setPk m).pitch = s.pitch := rfl
@[simp] theorem State.setPk_yaw (s : State) (m : Memory) : (s.setPk m).yaw = s.yaw := rfl
@[simp] theorem State.setPk_thrust (s : State) (m : Memory) : (s.setPk m).thrust = s.thrust := rfl
@[simp] theorem State.setPk_pv (s : State) (m : Memory) : (s.setPk m).pv = s.pv := rfl
@[simp] theorem State.setPk_len (s : State) (m : Memory) : (s.setPk m).len = s.len := rfl
@[simp] theorem State.setPk_portOk (s : State) (m : Memory) : (s.setPk m).portOk = s.portOk := rfl
@[simp] theorem State.setPk_chanOk (s : State) (m : Memory) : (s.setPk m).chanOk = s.chanOk := rfl
@[simp] theorem State.setPk_pk (s : State) (m : Memory) : (s.setPk m).pk = m := rfl
@[simp] theorem State.setPk_pending (s : State) (m : Memory) : (s.setPk m).pending = s.pending := rfl
@[simp] theorem State.setPk_response (s : State) (m : Memory) : (s.setPk m).response = s.response := rfl

@[simp] theorem State.setHdr_endian (s : State) (p : BitVec 4) (c : BitVec 2) (v : BitVec 1) : (s.setHdr p c v).endian = s.endian := rfl
@[simp] theorem State.setHdr_hchk (s : State) (p : BitVec 4) (c : BitVec 2) (v : BitVec 1) : (s.setHdr p c v).hchk = s.hchk := rfl
@[simp] theorem State.setHdr_kind (s : State) (p : BitVec 4) (c : BitVec 2) (v : BitVec 1) : (s.setHdr p c v).kind = s.kind := rfl
@[simp] theorem State.setHdr_err (s : State) (p : BitVec 4) (c : BitVec 2) (v : BitVec 1) : (s.setHdr p c v).err = s.err := rfl
@[simp] theorem State.setHdr_cat (s : State) (p : BitVec 4) (c : BitVec 2) (v : BitVec 1) : (s.setHdr p c v).cat = s.cat := rfl
@[simp] theorem State.setHdr_port (s : State) (p : BitVec 4) (c : BitVec 2) (v : BitVec 1) : (s.setHdr p c v).port = p := rfl
@[simp] theorem State.setHdr_chan (s : State) (p : BitVec 4) (c : BitVec 2) (v : BitVec 1) : (s.setHdr p c v).chan = c := rfl
@[simp] theorem State.setHdr_hv (s : State) (p : BitVec 4) (c : BitVec 2) (v : BitVec 1) : (s.setHdr p c v).hv = v := rfl
@[simp] theorem State.setHdr_hb (s : State) (p : BitVec 4) (c : BitVec 2) (v : BitVec 1) : (s.setHdr p c v).hb = s.hb := rfl
@[simp] theorem State.setHdr_fv (s : State) (p : BitVec 4) (c : BitVec 2) (v : BitVec 1) : (s.setHdr p c v).fv = s.fv := rfl
@[simp] theorem State.setHdr_roll (s : State) (p : BitVec 4) (c : BitVec 2) (v : BitVec 1) : (s.setHdr p c v).roll = s.roll := rfl
@[simp] theorem State.setHdr_pitch (s : State) (p : BitVec 4) (c : BitVec 2) (v : BitVec 1) : (s.setHdr p c v).pitch = s.pitch := rfl
@[simp] theorem State.setHdr_yaw (s : State) (p : BitVec 4) (c : BitVec 2) (v : BitVec 1) : (s.setHdr p c v).yaw = s.yaw := rfl
@[simp] theorem State.setHdr_thrust (s : State) (p : BitVec 4) (c : BitVec 2) (v : BitVec 1) : (s.setHdr p c v).thrust = s.thrust := rfl
@[simp] theorem State.setHdr_pv (s : State) (p : BitVec 4) (c : BitVec 2) (v : BitVec 1) : (s.setHdr p c v).pv = s.pv := rfl
@[simp] theorem State.setHdr_len (s : State) (p : BitVec 4) (c : BitVec 2) (v : BitVec 1) : (s.setHdr p c v).len = s.len := rfl
@[simp] theorem State.setHdr_portOk (s : State) (p : BitVec 4) (c : BitVec 2) (v : BitVec 1) : (s.setHdr p c v).portOk = s.portOk := rfl
@[simp] theorem State.setHdr_chanOk (s : State) (p : BitVec 4) (c : BitVec 2) (v : BitVec 1) : (s.setHdr p c v).chanOk = s.chanOk := rfl
@[simp] theorem State.setHdr_pk (s : State) (p : BitVec 4) (c : BitVec 2) (v : BitVec 1) : (s.setHdr p c v).pk = s.pk := rfl
@[simp] theorem State.setHdr_pending (s : State) (p : BitVec 4) (c : BitVec 2) (v : BitVec 1) : (s.setHdr p c v).pending = s.pending := rfl
@[simp] theorem State.setHdr_response (s : State) (p : BitVec 4) (c : BitVec 2) (v : BitVec 1) : (s.setHdr p c v).response = s.response := rfl
@[simp] theorem State.setHdr_pkByte (s : State) (p : BitVec 4) (c : BitVec 2) (v : BitVec 1) (i : Nat) : (s.setHdr p c v).pkByte i = s.pkByte i := rfl

@[simp] theorem State.setHv_endian (s : State) (v : BitVec 1) : (s.setHv v).endian = s.endian := rfl
@[simp] theorem State.setHv_hchk (s : State) (v : BitVec 1) : (s.setHv v).hchk = s.hchk := rfl
@[simp] theorem State.setHv_kind (s : State) (v : BitVec 1) : (s.setHv v).kind = s.kind := rfl
@[simp] theorem State.setHv_err (s : State) (v : BitVec 1) : (s.setHv v).err = s.err := rfl
@[simp] theorem State.setHv_cat (s : State) (v : BitVec 1) : (s.setHv v).cat = s.cat := rfl
@[simp] theorem State.setHv_port (s : State) (v : BitVec 1) : (s.setHv v).port = s.port := rfl
@[simp] theorem State.setHv_chan (s : State) (v : BitVec 1) : (s.setHv v).chan = s.chan := rfl
@[simp] theorem State.setHv_hv (s : State) (v : BitVec 1) : (s.setHv v).hv = v := rfl
@[simp] theorem State.setHv_hb (s : State) (v : BitVec 1) : (s.setHv v).hb = s.hb := rfl
@[simp] theorem State.setHv_fv (s : State) (v : BitVec 1) : (s.setHv v).fv = s.fv := rfl
@[simp] theorem State.setHv_roll (s : State) (v : BitVec 1) : (s.setHv v).roll = s.roll := rfl
@[simp] theorem State.setHv_pitch (s : State) (v : BitVec 1) : (s.setHv v).pitch = s.pitch := rfl
@[simp] theorem State.setHv_yaw (s : State) (v : BitVec 1) : (s.setHv v).yaw = s.yaw := rfl
@[simp] theorem State.setHv_thrust (s : State) (v : BitVec 1) : (s.setHv v).thrust = s.thrust := rfl
@[simp] theorem State.setHv_pv (s : State) (v : BitVec 1) : (s.setHv v).pv = s.pv := rfl
@[simp] theorem State.setHv_len (s : State) (v : BitVec 1) : (s.setHv v).len = s.len := rfl
@[simp] theorem State.setHv_portOk (s : State) (v : BitVec 1) : (s.setHv v).portOk = s.portOk := rfl
@[simp] theorem State.setHv_chanOk (s : State) (v : BitVec 1) : (s.setHv v).chanOk = s.chanOk := rfl
@[simp] theorem State.setHv_pk (s : State) (v : BitVec 1) : (s.setHv v).pk = s.pk := rfl
@[simp] theorem State.setHv_pending (s : State) (v : BitVec 1) : (s.setHv v).pending = s.pending := rfl
@[simp] theorem State.setHv_response (s : State) (v : BitVec 1) : (s.setHv v).response = s.response := rfl
@[simp] theorem State.setHv_pkByte (s : State) (v : BitVec 1) (i : Nat) : (s.setHv v).pkByte i = s.pkByte i := rfl

@[simp] theorem State.setHb_endian (s : State) (b : Byte) : (s.setHb b).endian = s.endian := rfl
@[simp] theorem State.setHb_hchk (s : State) (b : Byte) : (s.setHb b).hchk = s.hchk := rfl
@[simp] theorem State.setHb_kind (s : State) (b : Byte) : (s.setHb b).kind = s.kind := rfl
@[simp] theorem State.setHb_err (s : State) (b : Byte) : (s.setHb b).err = s.err := rfl
@[simp] theorem State.setHb_cat (s : State) (b : Byte) : (s.setHb b).cat = s.cat := rfl
@[simp] theorem State.setHb_port (s : State) (b : Byte) : (s.setHb b).port = s.port := rfl
@[simp] theorem State.setHb_chan (s : State) (b : Byte) : (s.setHb b).chan = s.chan := rfl
@[simp] theorem State.setHb_hv (s : State) (b : Byte) : (s.setHb b).hv = s.hv := rfl
@[simp] theorem State.setHb_hb (s : State) (b : Byte) : (s.setHb b).hb = b := rfl
@[simp] theorem State.setHb_fv (s : State) (b : Byte) : (s.setHb b).fv = s.fv := rfl
@[simp] theorem State.setHb_roll (s : State) (b : Byte) : (s.setHb b).roll = s.roll := rfl
@[simp] theorem State.setHb_pitch (s : State) (b : Byte) : (s.setHb b).pitch = s.pitch := rfl
@[simp] theorem State.setHb_yaw (s : State) (b : Byte) : (s.setHb b).yaw = s.yaw := rfl
@[simp] theorem State.setHb_thrust (s : State) (b : Byte) : (s.setHb b).thrust = s.thrust := rfl
@[simp] theorem State.setHb_pv (s : State) (b : Byte) : (s.setHb b).pv = s.pv := rfl
@[simp] theorem State.setHb_len (s : State) (b : Byte) : (s.setHb b).len = s.len := rfl
@[simp] theorem State.setHb_portOk (s : State) (b : Byte) : (s.setHb b).portOk = s.portOk := rfl
@[simp] theorem State.setHb_chanOk (s : State) (b : Byte) : (s.setHb b).chanOk = s.chanOk := rfl
@[simp] theorem State.setHb_pk (s : State) (b : Byte) : (s.setHb b).pk = s.pk := rfl
@[simp] theorem State.setHb_pending (s : State) (b : Byte) : (s.setHb b).pending = s.pending := rfl
@[simp] theorem State.setHb_response (s : State) (b : Byte) : (s.setHb b).response = s.response := rfl
@[simp] theorem State.setHb_pkByte (s : State) (b : Byte) (i : Nat) : (s.setHb b).pkByte i = s.pkByte i := rfl

@[simp] theorem State.setFv_endian (s : State) (v : Word) : (s.setFv v).endian = s.endian := rfl
@[simp] theorem State.setFv_hchk (s : State) (v : Word) : (s.setFv v).hchk = s.hchk := rfl
@[simp] theorem State.setFv_kind (s : State) (v : Word) : (s.setFv v).kind = s.kind := rfl
@[simp] theorem State.setFv_err (s : State) (v : Word) : (s.setFv v).err = s.err := rfl
@[simp] theorem State.setFv_cat (s : State) (v : Word) : (s.setFv v).cat = s.cat := rfl
@[simp] theorem State.setFv_port (s : State) (v : Word) : (s.setFv v).port = s.port := rfl
@[simp] theorem State.setFv_chan (s : State) (v : Word) : (s.setFv v).chan = s.chan := rfl
@[simp] theorem State.setFv_hv (s : State) (v : Word) : (s.setFv v).hv = s.hv := rfl
@[simp] theorem State.setFv_hb (s : State) (v : Word) : (s.setFv v).hb = s.hb := rfl
@[simp] theorem State.setFv_fv (s : State) (v : Word) : (s.setFv v).fv = v := rfl
@[simp] theorem State.setFv_roll (s : State) (v : Word) : (s.setFv v).roll = s.roll := rfl
@[simp] theorem State.setFv_pitch (s : State) (v : Word) : (s.setFv v).pitch = s.pitch := rfl
@[simp] theorem State.setFv_yaw (s : State) (v : Word) : (s.setFv v).yaw = s.yaw := rfl
@[simp] theorem State.setFv_thrust (s : State) (v : Word) : (s.setFv v).thrust = s.thrust := rfl
@[simp] theorem State.setFv_pv (s : State) (v : Word) : (s.setFv v).pv = s.pv := rfl
@[simp] theorem State.setFv_len (s : State) (v : Word) : (s.setFv v).len = s.len := rfl
@[simp] theorem State.setFv_portOk (s : State) (v : Word) : (s.setFv v).portOk = s.portOk := rfl
@[simp] theorem State.setFv_chanOk (s : State) (v : Word) : (s.setFv v).chanOk = s.chanOk := rfl
@[simp] theorem State.setFv_pk (s : State) (v : Word) : (s.setFv v).pk = s.pk := rfl
@[simp] theorem State.setFv_pending (s : State) (v : Word) : (s.setFv v).pending = s.pending := rfl
@[simp] theorem State.setFv_response (s : State) (v : Word) : (s.setFv v).response = s.response := rfl
@[simp] theorem State.setFv_pkByte (s : State) (v : Word) (i : Nat) : (s.setFv v).pkByte i = s.pkByte i := rfl

@[simp] theorem State.setPayload_endian (s : State) (r p y : Word) (t : BitVec 16) : (s.setPayload r p y t).endian = s.endian := rfl
@[simp] theorem State.setPayload_hchk (s : State) (r p y : Word) (t : BitVec 16) : (s.setPayload r p y t).hchk = s.hchk := rfl
@[simp] theorem State.setPayload_kind (s : State) (r p y : Word) (t : BitVec 16) : (s.setPayload r p y t).kind = s.kind := rfl
@[simp] theorem State.setPayload_err (s : State) (r p y : Word) (t : BitVec 16) : (s.setPayload r p y t).err = s.err := rfl
@[simp] theorem State.setPayload_cat (s : State) (r p y : Word) (t : BitVec 16) : (s.setPayload r p y t).cat = s.cat := rfl
@[simp] theorem State.setPayload_port (s : State) (r p y : Word) (t : BitVec 16) : (s.setPayload r p y t).port = s.port := rfl
@[simp] theorem State.setPayload_chan (s : State) (r p y : Word) (t : BitVec 16) : (s.setPayload r p y t).chan = s.chan := rfl
@[simp] theorem State.setPayload_hv (s : State) (r p y : Word) (t : BitVec 16) : (s.setPayload r p y t).hv = s.hv := rfl
@[simp] theorem State.setPayload_hb (s : State) (r p y : Word) (t : BitVec 16) : (s.setPayload r p y t).hb = s.hb := rfl
@[simp] theorem State.setPayload_fv (s : State) (r p y : Word) (t : BitVec 16) : (s.setPayload r p y t).fv = s.fv := rfl
@[simp] theorem State.setPayload_roll (s : State) (r p y : Word) (t : BitVec 16) : (s.setPayload r p y t).roll = r := rfl
@[simp] theorem State.setPayload_pitch (s : State) (r p y : Word) (t : BitVec 16) : (s.setPayload r p y t).pitch = p := rfl
@[simp] theorem State.setPayload_yaw (s : State) (r p y : Word) (t : BitVec 16) : (s.setPayload r p y t).yaw = y := rfl
@[simp] theorem State.setPayload_thrust (s : State) (r p y : Word) (t : BitVec 16) : (s.setPayload r p y t).thrust = t := rfl
@[simp] theorem State.setPayload_pv (s : State) (r p y : Word) (t : BitVec 16) : (s.setPayload r p y t).pv = s.pv := rfl
@[simp] theorem State.setPayload_len (s : State) (r p y : Word) (t : BitVec 16) : (s.setPayload r p y t).len = s.len := rfl
@[simp] theorem State.setPayload_portOk (s : State) (r p y : Word) (t : BitVec 16) : (s.setPayload r p y t).portOk = s.portOk := rfl
@[simp] theorem State.setPayload_chanOk (s : State) (r p y : Word) (t : BitVec 16) : (s.setPayload r p y t).chanOk = s.chanOk := rfl
@[simp] theorem State.setPayload_pk (s : State) (r p y : Word) (t : BitVec 16) : (s.setPayload r p y t).pk = s.pk := rfl
@[simp] theorem State.setPayload_pending (s : State) (r p y : Word) (t : BitVec 16) : (s.setPayload r p y t).pending = s.pending := rfl
@[simp] theorem State.setPayload_response (s : State) (r p y : Word) (t : BitVec 16) : (s.setPayload r p y t).response = s.response := rfl
@[simp] theorem State.setPayload_pkByte (s : State) (r p y : Word) (t : BitVec 16) (i : Nat) : (s.setPayload r p y t).pkByte i = s.pkByte i := rfl

@[simp] theorem State.setPv_endian (s : State) (v : BitVec 1) : (s.setPv v).endian = s.endian := rfl
@[simp] theorem State.setPv_hchk (s : State) (v : BitVec 1) : (s.setPv v).hchk = s.hchk := rfl
@[simp] theorem State.setPv_kind (s : State) (v : BitVec 1) : (s.setPv v).kind = s.kind := rfl
@[simp] theorem State.setPv_err (s : State) (v : BitVec 1) : (s.setPv v).err = s.err := rfl
@[simp] theorem State.setPv_cat (s : State) (v : BitVec 1) : (s.setPv v).cat = s.cat := rfl
@[simp] theorem State.setPv_port (s : State) (v : BitVec 1) : (s.setPv v).port = s.port := rfl
@[simp] theorem State.setPv_chan (s : State) (v : BitVec 1) : (s.setPv v).chan = s.chan := rfl
@[simp] theorem State.setPv_hv (s : State) (v : BitVec 1) : (s.setPv v).hv = s.hv := rfl
@[simp] theorem State.setPv_hb (s : State) (v : BitVec 1) : (s.setPv v).hb = s.hb := rfl
@[simp] theorem State.setPv_fv (s : State) (v : BitVec 1) : (s.setPv v).fv = s.fv := rfl
@[simp] theorem State.setPv_roll (s : State) (v : BitVec 1) : (s.setPv v).roll = s.roll := rfl
@[simp] theorem State.setPv_pitch (s : State) (v : BitVec 1) : (s.setPv v).pitch = s.pitch := rfl
@[simp] theorem State.setPv_yaw (s : State) (v : BitVec 1) : (s.setPv v).yaw = s.yaw := rfl
@[simp] theorem State.setPv_thrust (s : State) (v : BitVec 1) : (s.setPv v).thrust = s.thrust := rfl
@[simp] theorem State.setPv_pv (s : State) (v : BitVec 1) : (s.setPv v).pv = v := rfl
@[simp] theorem State.setPv_len (s : State) (v : BitVec 1) : (s.setPv v).len = s.len := rfl
@[simp] theorem State.setPv_portOk (s : State) (v : BitVec 1) : (s.setPv v).portOk = s.portOk := rfl
@[simp] theorem State.setPv_chanOk (s : State) (v : BitVec 1) : (s.setPv v).chanOk = s.chanOk := rfl
@[simp] theorem State.setPv_pk (s : State) (v : BitVec 1) : (s.setPv v).pk = s.pk := rfl
@[simp] theorem State.setPv_pending (s : State) (v : BitVec 1) : (s.setPv v).pending = s.pending := rfl
@[simp] theorem State.setPv_response (s : State) (v : BitVec 1) : (s.setPv v).response = s.response := rfl
@[simp] theorem State.setPv_pkByte (s : State) (v : BitVec 1) (i : Nat) : (s.setPv v).pkByte i = s.pkByte i := rfl

@[simp] theorem State.setLen_endian (s : State) (n : BitVec 6) : (s.setLen n).endian = s.endian := rfl
@[simp] theorem State.setLen_hchk (s : State) (n : BitVec 6) : (s.setLen n).hchk = s.hchk := rfl
@[simp] theorem State.setLen_kind (s : State) (n : BitVec 6) : (s.setLen n).kind = s.kind := rfl
@[simp] theorem State.setLen_err (s : State) (n : BitVec 6) : (s.setLen n).err = s.err := rfl
@[simp] theorem State.setLen_cat (s : State) (n : BitVec 6) : (s.setLen n).cat = s.cat := rfl
@[simp] theorem State.setLen_port (s : State) (n : BitVec 6) : (s.setLen n).port = s.port := rfl
@[simp] theorem State.setLen_chan (s : State) (n : BitVec 6) : (s.setLen n).chan = s.chan := rfl
@[simp] theorem State.setLen_hv (s : State) (n : BitVec 6) : (s.setLen n).hv = s.hv := rfl
@[simp] theorem State.setLen_hb (s : State) (n : BitVec 6) : (s.setLen n).hb = s.hb := rfl
@[simp] theorem State.setLen_fv (s : State) (n : BitVec 6) : (s.setLen n).fv = s.fv := rfl
@[simp] theorem State.setLen_roll (s : State) (n : BitVec 6) : (s.setLen n).roll = s.roll := rfl
@[simp] theorem State.setLen_pitch (s : State) (n : BitVec 6) : (s.setLen n).pitch = s.pitch := rfl
@[simp] theorem State.setLen_yaw (s : State) (n : BitVec 6) : (s.setLen n).yaw = s.yaw := rfl
@[simp] theorem State.setLen_thrust (s : State) (n : BitVec 6) : (s.setLen n).thrust = s.thrust := rfl
@[simp] theorem State.setLen_pv (s : State) (n : BitVec 6) : (s.setLen n).pv = s.pv := rfl
@[simp] theorem State.setLen_len (s : State) (n : BitVec 6) : (s.setLen n).len = n := rfl
@[simp] theorem State.setLen_portOk (s : State) (n : BitVec 6) : (s.setLen n).portOk = s.portOk := rfl
@[simp] theorem State.setLen_chanOk (s : State) (n : BitVec 6) : (s.setLen n).chanOk = s.chanOk := rfl
@[simp] theorem State.setLen_pk (s : State) (n : BitVec 6) : (s.setLen n).pk = s.pk := rfl
@[simp] theorem State.setLen_pending (s : State) (n : BitVec 6) : (s.setLen n).pending = s.pending := rfl
@[simp] theorem State.setLen_response (s : State) (n : BitVec 6) : (s.setLen n).response = s.response := rfl
@[simp] theorem State.setLen_pkByte (s : State) (n : BitVec 6) (i : Nat) : (s.setLen n).pkByte i = s.pkByte i := rfl

@[simp] theorem State.setResponse_endian (s : State) (r : Response) : (s.setResponse r).endian = s.endian := rfl
@[simp] theorem State.setResponse_hchk (s : State) (r : Response) : (s.setResponse r).hchk = s.hchk := rfl
@[simp] theorem State.setResponse_kind (s : State) (r : Response) : (s.setResponse r).kind = s.kind := rfl
@[simp] theorem State.setResponse_err (s : State) (r : Response) : (s.setResponse r).err = s.err := rfl
@[simp] theorem State.setResponse_cat (s : State) (r : Response) : (s.setResponse r).cat = s.cat := rfl
@[simp] theorem State.setResponse_port (s : State) (r : Response) : (s.setResponse r).port = s.port := rfl
@[simp] theorem State.setResponse_chan (s : State) (r : Response) : (s.setResponse r).chan = s.chan := rfl
@[simp] theorem State.setResponse_hv (s : State) (r : Response) : (s.setResponse r).hv = s.hv := rfl
@[simp] theorem State.setResponse_hb (s : State) (r : Response) : (s.setResponse r).hb = s.hb := rfl
@[simp] theorem State.setResponse_fv (s : State) (r : Response) : (s.setResponse r).fv = s.fv := rfl
@[simp] theorem State.setResponse_roll (s : State) (r : Response) : (s.setResponse r).roll = s.roll := rfl
@[simp] theorem State.setResponse_pitch (s : State) (r : Response) : (s.setResponse r).pitch = s.pitch := rfl
@[simp] theorem State.setResponse_yaw (s : State) (r : Response) : (s.setResponse r).yaw = s.yaw := rfl
@[simp] theorem State.setResponse_thrust (s : State) (r : Response) : (s.setResponse r).thrust = s.thrust := rfl
@[simp] theorem State.setResponse_pv (s : State) (r : Response) : (s.setResponse r).pv = s.pv := rfl
@[simp] theorem State.setResponse_len (s : State) (r : Response) : (s.setResponse r).len = s.len := rfl
@[simp] theorem State.setResponse_portOk (s : State) (r : Response) : (s.setResponse r).portOk = s.portOk := rfl
@[simp] theorem State.setResponse_chanOk (s : State) (r : Response) : (s.setResponse r).chanOk = s.chanOk := rfl
@[simp] theorem State.setResponse_pk (s : State) (r : Response) : (s.setResponse r).pk = s.pk := rfl
@[simp] theorem State.setResponse_pending (s : State) (r : Response) : (s.setResponse r).pending = s.pending := rfl
@[simp] theorem State.setResponse_response (s : State) (r : Response) : (s.setResponse r).response = some r := rfl
@[simp] theorem State.setResponse_pkByte (s : State) (r : Response) (i : Nat) : (s.setResponse r).pkByte i = s.pkByte i := rfl

@[simp] theorem State.setCmdFields_endian (s : State) (bs : List Byte) (e : ByteOrder) : (s.setCmdFields bs e).endian = s.endian := rfl
@[simp] theorem State.setCmdFields_hchk (s : State) (bs : List Byte) (e : ByteOrder) : (s.setCmdFields bs e).hchk = s.hchk := rfl
@[simp] theorem State.setCmdFields_kind (s : State) (bs : List Byte) (e : ByteOrder) : (s.setCmdFields bs e).kind = s.kind := rfl
@[simp] theorem State.setCmdFields_err (s : State) (bs : List Byte) (e : ByteOrder) : (s.setCmdFields bs e).err = s.err := rfl
@[simp] theorem State.setCmdFields_cat (s : State) (bs : List Byte) (e : ByteOrder) : (s.setCmdFields bs e).cat = s.cat := rfl
@[simp] theorem State.setCmdFields_port (s : State) (bs : List Byte) (e : ByteOrder) : (s.setCmdFields bs e).port = s.port := rfl
@[simp] theorem State.setCmdFields_chan (s : State) (bs : List Byte) (e : ByteOrder) : (s.setCmdFields bs e).chan = s.chan := rfl
@[simp] theorem State.setCmdFields_hv (s : State) (bs : List Byte) (e : ByteOrder) : (s.setCmdFields bs e).hv = s.hv := rfl
@[simp] theorem State.setCmdFields_hb (s : State) (bs : List Byte) (e : ByteOrder) : (s.setCmdFields bs e).hb = s.hb := rfl
@[simp] theorem State.setCmdFields_fv (s : State) (bs : List Byte) (e : ByteOrder) : (s.setCmdFields bs e).fv = s.fv := rfl
@[simp] theorem State.setCmdFields_pv (s : State) (bs : List Byte) (e : ByteOrder) : (s.setCmdFields bs e).pv = s.pv := rfl
@[simp] theorem State.setCmdFields_len (s : State) (bs : List Byte) (e : ByteOrder) : (s.setCmdFields bs e).len = s.len := rfl
@[simp] theorem State.setCmdFields_portOk (s : State) (bs : List Byte) (e : ByteOrder) : (s.setCmdFields bs e).portOk = s.portOk := rfl
@[simp] theorem State.setCmdFields_chanOk (s : State) (bs : List Byte) (e : ByteOrder) : (s.setCmdFields bs e).chanOk = s.chanOk := rfl
@[simp] theorem State.setCmdFields_pk (s : State) (bs : List Byte) (e : ByteOrder) : (s.setCmdFields bs e).pk = s.pk := rfl
@[simp] theorem State.setCmdFields_pending (s : State) (bs : List Byte) (e : ByteOrder) : (s.setCmdFields bs e).pending = s.pending := rfl
@[simp] theorem State.setCmdFields_response (s : State) (bs : List Byte) (e : ByteOrder) : (s.setCmdFields bs e).response = s.response := rfl

@[simp] theorem writePk_endian (i : Nat) (bs : List Byte) (s : State) : (writePk i bs s).endian = s.endian := rfl
@[simp] theorem writePk_hchk (i : Nat) (bs : List Byte) (s : State) : (writePk i bs s).hchk = s.hchk := rfl
@[simp] theorem writePk_kind (i : Nat) (bs : List Byte) (s : State) : (writePk i bs s).kind = s.kind := rfl
@[simp] theorem writePk_err (i : Nat) (bs : List Byte) (s : State) : (writePk i bs s).err = s.err := rfl
@[simp] theorem writePk_cat (i : Nat) (bs : List Byte) (s : State) : (writePk i bs s).cat = s.cat := rfl
@[simp] theorem writePk_port (i : Nat) (bs : List Byte) (s : State) : (writePk i bs s).port = s.port := rfl
@[simp] theorem writePk_chan (i : Nat) (bs : List Byte) (s : State) : (writePk i bs s).chan = s.chan := rfl
@[simp] theorem writePk_hv (i : Nat) (bs : List Byte) (s : State) : (writePk i bs s).hv = s.hv := rfl
@[simp] theorem writePk_hb (i : Nat) (bs : List Byte) (s : State) : (writePk i bs s).hb = s.hb := rfl
@[simp] theorem writePk_fv (i : Nat) (bs : List Byte) (s : State) : (writePk i bs s).fv = s.fv := rfl
@[simp] theorem writePk_roll (i : Nat) (bs : List Byte) (s : State) : (writePk i bs s).roll = s.roll := rfl
@[simp] theorem writePk_pitch (i : Nat) (bs : List Byte) (s : State) : (writePk i bs s).pitch = s.pitch := rfl
@[simp] theorem writePk_yaw (i : Nat) (bs : List Byte) (s : State) : (writePk i bs s).yaw = s.yaw := rfl
@[simp] theorem writePk_thrust (i : Nat) (bs : List Byte) (s : State) : (writePk i bs s).thrust = s.thrust := rfl
@[simp] theorem writePk_pv (i : Nat) (bs : List Byte) (s : State) : (writePk i bs s).pv = s.pv := rfl
@[simp] theorem writePk_len (i : Nat) (bs : List Byte) (s : State) : (writePk i bs s).len = s.len := rfl
@[simp] theorem writePk_portOk (i : Nat) (bs : List Byte) (s : State) : (writePk i bs s).portOk = s.portOk := rfl
@[simp] theorem writePk_chanOk (i : Nat) (bs : List Byte) (s : State) : (writePk i bs s).chanOk = s.chanOk := rfl
@[simp] theorem writePk_pending (i : Nat) (bs : List Byte) (s : State) : (writePk i bs s).pending = s.pending := rfl
@[simp] theorem writePk_response (i : Nat) (bs : List Byte) (s : State) : (writePk i bs s).response = s.response := rfl

end Sys2Proof.Machine
end

