-- ==== Sys2Proof/Laws/Memory.lean ====
section
/-! SUPPORT. The packet buffer: read after write, everything else left alone, and the canonical form kept. -/

namespace Sys2Proof.Machine

theorem Memory.wfFrom_mono : ∀ (m : Memory) (lo lo' : Nat), lo' ≤ lo → Memory.wfFrom lo m = true →
    Memory.wfFrom lo' m = true
  | [], _, _, _, _ => rfl
  | (x, y) :: rest, lo, lo', h, hw => by
    simp only [Memory.wfFrom, Bool.and_eq_true, decide_eq_true_eq] at hw ⊢
    exact ⟨⟨⟨h.trans hw.1.1.1, hw.1.1.2⟩, hw.1.2⟩, hw.2⟩

/-- Below its first possible address a canonical buffer reads 0. -/
theorem Memory.readByte_below : ∀ (m : Memory) (lo a : Nat), Memory.wfFrom lo m = true → a < lo →
    Memory.readByte m a = 0#8
  | [], _, _, _, _ => rfl
  | (x, y) :: rest, lo, a, hw, h => by
    simp only [Memory.wfFrom, Bool.and_eq_true, decide_eq_true_eq] at hw
    have hne : a ≠ x := by omega
    simp only [Memory.readByte, hne, if_false]
    exact Memory.readByte_below rest (x + 1) a hw.2 (by omega)

/-- A write leaves every other byte alone. -/
theorem Memory.readByte_writeByte_ne : ∀ (m : Memory) (a a' : Nat) (b : Byte), a' ≠ a →
    Memory.readByte (Memory.writeByte m a b) a' = Memory.readByte m a'
  | [], a, a', b, h => by
    by_cases hb : b = 0#8 <;> simp [Memory.writeByte, Memory.readByte, hb, h]
  | (x, y) :: rest, a, a', b, h => by
    have ih := Memory.readByte_writeByte_ne rest a a' b h
    by_cases hx : a < x
    · by_cases hb : b = 0#8 <;> simp [Memory.writeByte, Memory.readByte, hx, hb, h]
    · by_cases he : a = x
      · subst he
        by_cases hb : b = 0#8 <;> simp [Memory.writeByte, Memory.readByte, hb, h]
      · simp [Memory.writeByte, Memory.readByte, hx, he, ih]

/-- A read after a write to the same place gives the byte written. -/
theorem Memory.readByte_writeByte_self : ∀ (m : Memory) (lo a : Nat) (b : Byte), Memory.wfFrom lo m = true →
    Memory.readByte (Memory.writeByte m a b) a = b
  | [], lo, a, b, _ => by
    by_cases hb : b = 0#8 <;> simp [Memory.writeByte, Memory.readByte, hb]
  | (x, y) :: rest, lo, a, b, hw => by
    simp only [Memory.wfFrom, Bool.and_eq_true, decide_eq_true_eq] at hw
    have ih := Memory.readByte_writeByte_self rest (x + 1) a b hw.2
    by_cases hx : a < x
    · by_cases hb : b = 0#8
      · have hne : a ≠ x := by omega
        simp [Memory.writeByte, Memory.readByte, hx, hb, hne, Memory.readByte_below rest (x + 1) a hw.2 (by omega)]
      · simp [Memory.writeByte, Memory.readByte, hx, hb]
    · by_cases he : a = x
      · subst he
        by_cases hb : b = 0#8
        · simp [Memory.writeByte, hb, Memory.readByte_below rest (a + 1) a hw.2 (by omega)]
        · simp [Memory.writeByte, Memory.readByte, hb]
      · simp [Memory.writeByte, Memory.readByte, hx, he, ih]

/-- A write inside PK keeps the canonical form. -/
theorem Memory.wfFrom_writeByte : ∀ (m : Memory) (lo a : Nat) (b : Byte), Memory.wfFrom lo m = true → lo ≤ a →
    a < Config.pkEnd → Memory.wfFrom lo (Memory.writeByte m a b) = true
  | [], lo, a, b, _, h1, h2 => by
    by_cases hb : b = 0#8 <;> simp_all [Memory.writeByte, Memory.wfFrom]
  | (x, y) :: rest, lo, a, b, hw, h1, h2 => by
    simp only [Memory.wfFrom, Bool.and_eq_true, decide_eq_true_eq] at hw
    obtain ⟨⟨⟨hlo, hend⟩, hy⟩, hrest⟩ := hw
    by_cases hx : a < x
    · by_cases hb : b = 0#8
      · simp only [Memory.writeByte, hx, hb, if_true, Memory.wfFrom, Bool.and_eq_true, decide_eq_true_eq]
        exact ⟨⟨⟨hlo, hend⟩, hy⟩, hrest⟩
      · simp only [Memory.writeByte, hx, hb, if_true, if_false, Memory.wfFrom, Bool.and_eq_true, decide_eq_true_eq]
        exact ⟨⟨⟨h1, h2⟩, hb⟩, ⟨⟨by omega, hend⟩, hy⟩, hrest⟩
    · by_cases he : a = x
      · subst he
        by_cases hb : b = 0#8
        · simp only [Memory.writeByte, hb, lt_irrefl, if_true, if_false]
          exact Memory.wfFrom_mono rest (a + 1) lo (by omega) hrest
        · simp only [Memory.writeByte, hb, lt_irrefl, if_true, if_false, Memory.wfFrom, Bool.and_eq_true,
            decide_eq_true_eq]
          exact ⟨⟨⟨hlo, hend⟩, hb⟩, hrest⟩
      · simp only [Memory.writeByte, hx, he, if_false, Memory.wfFrom, Bool.and_eq_true, decide_eq_true_eq]
        exact ⟨⟨⟨hlo, hend⟩, hy⟩, Memory.wfFrom_writeByte rest (x + 1) a b hrest (by omega) h2⟩

theorem Memory.wf_writeByte (m : Memory) (a : Nat) (b : Byte) (hw : m.wf = true) (h1 : Config.pkBase ≤ a)
    (h2 : a < Config.pkEnd) : (m.writeByte a b).wf = true :=
  Memory.wfFrom_writeByte m _ a b hw h1 h2

theorem Memory.wf_writeBytes : ∀ (bs : List Byte) (m : Memory) (a : Nat), m.wf = true → Config.pkBase ≤ a →
    a + bs.length ≤ Config.pkEnd → (m.writeBytes a bs).wf = true
  | [], _, _, hw, _, _ => hw
  | b :: bs, m, a, hw, h1, h2 => by
    rw [List.length_cons] at h2
    exact Memory.wf_writeBytes bs _ (a + 1) (Memory.wf_writeByte m a b hw h1 (by omega)) (by omega) (by omega)

/-- Writing a list of bytes leaves every byte outside it alone. -/
theorem Memory.readByte_writeBytes_outside : ∀ (bs : List Byte) (m : Memory) (a a' : Nat),
    (a' < a ∨ a + bs.length ≤ a') → Memory.readByte (m.writeBytes a bs) a' = Memory.readByte m a'
  | [], _, _, _, _ => rfl
  | b :: bs, m, a, a', h => by
    rw [List.length_cons] at h
    rw [Memory.writeBytes, Memory.readByte_writeBytes_outside bs _ (a + 1) a' (by omega),
      Memory.readByte_writeByte_ne m a a' b (by omega)]

/-- Reading inside a list of bytes just written gives the byte of the list. -/
theorem Memory.readByte_writeBytes_inside : ∀ (bs : List Byte) (m : Memory) (a k : Nat), m.wf = true →
    Config.pkBase ≤ a → a + bs.length ≤ Config.pkEnd → (h : k < bs.length) →
    Memory.readByte (m.writeBytes a bs) (a + k) = bs[k]
  | b :: bs, m, a, 0, hw, h1, h2, _ => by
    rw [Memory.writeBytes, Nat.add_zero a, Memory.readByte_writeBytes_outside bs _ (a + 1) a (by omega),
      Memory.readByte_writeByte_self m _ a b hw]
    rfl
  | b :: bs, m, a, k + 1, hw, h1, h2, h => by
    rw [List.length_cons] at h2
    have h' : k < bs.length := by simpa using h
    rw [Memory.writeBytes, show a + (k + 1) = a + 1 + k by omega,
      Memory.readByte_writeBytes_inside bs _ (a + 1) k (Memory.wf_writeByte m a b hw h1 (by omega)) (by omega)
        (by omega) h']
    rfl

theorem Memory.wf_reset : State.reset.pk.wf = true := rfl

end Sys2Proof.Machine
end

