-- ==== Sys2Proof/Laws/Ops.lean ====
section
/-! SUPPORT. One lemma for each shared operation that says once everything it can do. -/

namespace Sys2Proof.Machine

/-- A completing command answers a next state, with STATUS 0. -/
theorem complete_next (s t : State) : complete s = .next t ↔ t = s.setStatus 0#3 0#3 := by
  simp [complete, eq_comm]

/-- A raising command answers a next state, with the error's code and category and nothing else changed. -/
theorem raise_next (e : CmdError) (c : Category) (s t : State) :
    raise e c s = .next t ↔ t = s.setStatus e.code c.code := by
  simp [raise, eq_comm]

theorem CmdError.code_ne_zero (e : CmdError) : e.code ≠ 0#3 := by cases e <;> decide

/-- `MemRead(a, n)` gives the `n` bytes from `PK[a]` on, exactly when they all exist. -/
theorem memRead_eq_some (a n : Nat) (s : State) (bs : List Byte) :
    memRead a n s = some bs ↔ a + n ≤ 32 ∧ bs = (List.range n).map fun k => s.pkByte (a + k) := by
  by_cases h : a + n ≤ 32 <;> simp [memRead, h, eq_comm]

/-- `MemWrite(a, n, bs)` stores the bytes at `PK[a ..]`, exactly when they all exist. -/
theorem memWrite_eq_some (a : Nat) (bs : List Byte) (s t : State) :
    memWrite a bs s = some t ↔
      a + bs.length ≤ 32 ∧ t = s.setPk (Memory.writeBytes s.pk (Config.pkBase + a) bs) := by
  by_cases h : a + bs.length ≤ 32 <;> simp [memWrite, h, eq_comm]

/-- What `MemWrite` stores reads back, and every other byte of PK reads as before. -/
theorem memWrite_pkByte {a : Nat} {bs : List Byte} {s t : State} (h : memWrite a bs s = some t)
    (hw : s.pk.wf = true) :
    (∀ (k : Nat) (hk : k < bs.length), t.pkByte (a + k) = bs[k]) ∧
    (∀ j, j < a ∨ a + bs.length ≤ j → t.pkByte j = s.pkByte j) := by
  obtain ⟨hb, rfl⟩ := (memWrite_eq_some a bs s t).1 h
  constructor
  · intro k hk
    have := Memory.readByte_writeBytes_inside bs s.pk (Config.pkBase + a) k hw (Nat.le_add_right _ _)
      (by simp; omega) hk
    simpa [State.pkByte, Nat.add_assoc] using this
  · intro j hj
    exact Memory.readByte_writeBytes_outside bs s.pk _ _ (by omega)

/-- `MemWrite` keeps PK's canonical form. -/
theorem memWrite_wf {a : Nat} {bs : List Byte} {s t : State} (h : memWrite a bs s = some t)
    (hw : s.pk.wf = true) : t.pk.wf = true := by
  obtain ⟨hb, rfl⟩ := (memWrite_eq_some a bs s t).1 h
  exact Memory.wf_writeBytes bs s.pk _ hw (Nat.le_add_right _ _) (by simp; omega)

/-- A field encode raises past LEN and otherwise stores; it stops only where PK has no such byte. -/
theorem encodeField_cases {w : Nat} (n : Nat) (c : Category) (off : Nat) (v : BitVec w) (s : State) :
    (s.len.toNat < off + n ∧ encodeField n c off v s = raise .encodeError c s) ∨
    (off + n ≤ s.len.toNat ∧ off + n ≤ 32 ∧ ∃ t, memWrite off (bytesOf n v s.byteOrder) s = some t ∧
      encodeField n c off v s = complete t) ∨
    (off + n ≤ s.len.toNat ∧ 32 < off + n ∧ encodeField n c off v s = .fault .outsideBuffer) := by
  by_cases h : s.len.toNat < off + n
  · exact .inl ⟨h, by simp [encodeField, h]⟩
  · by_cases h' : off + n ≤ 32
    · exact .inr (.inl ⟨by omega, h', _, (memWrite_eq_some _ _ _ _).2 ⟨by simpa using h', rfl⟩, by
        simp [encodeField, memWrite, h, h']⟩)
    · exact .inr (.inr ⟨by omega, by omega, by simp [encodeField, memWrite, h, h']⟩)

/-- A field decode raises past LEN and otherwise loads FV; it stops only where PK has no such byte. -/
theorem decodeField_cases (n : Nat) (c : Category) (off : Nat) (s : State) :
    (s.len.toNat < off + n ∧ decodeField n c off s = raise .decodeError c s) ∨
    (off + n ≤ s.len.toNat ∧ off + n ≤ 32 ∧ decodeField n c off s = complete (s.setFv
      ((valueOf (8 * n) ((List.range n).map fun k => s.pkByte (off + k)) s.byteOrder).setWidth 32))) ∨
    (off + n ≤ s.len.toNat ∧ 32 < off + n ∧ decodeField n c off s = .fault .outsideBuffer) := by
  by_cases h : s.len.toNat < off + n
  · exact .inl ⟨h, by simp [decodeField, h]⟩
  · by_cases h' : off + n ≤ 32
    · exact .inr (.inl ⟨by omega, h', by simp [decodeField, memRead, h, h']⟩)
    · exact .inr (.inr ⟨by omega, by omega, by simp [decodeField, memRead, h, h']⟩)

/-- A field encode, all three outcomes in one line. -/
theorem encodeField_eq {w : Nat} (n : Nat) (c : Category) (off : Nat) (v : BitVec w) (s : State) :
    encodeField n c off v s = if s.len.toNat < off + n then raise .encodeError c s
      else if off + n ≤ 32 then
        complete (s.setPk (Memory.writeBytes s.pk (Config.pkBase + off) (bytesOf n v s.byteOrder)))
      else .fault .outsideBuffer := by
  by_cases h : s.len.toNat < off + n <;> by_cases h' : off + n ≤ 32 <;> simp [encodeField, memWrite, h, h']

/-- A field decode, all three outcomes in one line. -/
theorem decodeField_eq (n : Nat) (c : Category) (off : Nat) (s : State) :
    decodeField n c off s = if s.len.toNat < off + n then raise .decodeError c s
      else if off + n ≤ 32 then complete (s.setFv
        ((valueOf (8 * n) ((List.range n).map fun k => s.pkByte (off + k)) s.byteOrder).setWidth 32))
      else .fault .outsideBuffer := by
  by_cases h : s.len.toNat < off + n <;> by_cases h' : off + n ≤ 32 <;> simp [decodeField, memRead, h, h']

/-- Storing a buffer of at most 32 bytes completes, with LEN its length. -/
theorem storeBuffer_eq (out : List Byte) (s : State) (h : out.length ≤ 32) :
    ∃ t, memWrite 0 out s = some t ∧ storeBuffer out s = complete (t.setLen (BitVec.ofNat 6 out.length)) :=
  ⟨_, (memWrite_eq_some _ _ _ _).2 ⟨by omega, rfl⟩, by simp [storeBuffer, memWrite, h]⟩

theorem State.packetBytes_length (s : State) : s.packetBytes.length
    = (if s.hv = 1#1 then 1 else 0) + (if s.kind = 0#1 ∧ s.pv = 1#1 then 14 else 0) := by
  unfold State.packetBytes State.headerBytes State.payloadBytes
  split <;> split <;> simp

theorem State.packetBytes_length_le (s : State) : s.packetBytes.length ≤ 15 := by
  rw [State.packetBytes_length]; split <;> split <;> omega

end Sys2Proof.Machine
end

