-- ==== Sys2Proof/Laws/Commands.lean ====
section
/-! SUPPORT. One inversion lemma per command that checks something: the cases of what it can do, each with the state it
answers, in the model's own operations. -/

namespace Sys2Proof.Machine

/-- The bytes that `MemRead(a, n)` returns. -/
def pkBytes (a n : Nat) (s : State) : List Byte := (List.range n).map fun k => s.pkByte (a + k)

theorem memRead_eq {a n : Nat} (s : State) (h : a + n ≤ 32) : memRead a n s = some (pkBytes a n s) :=
  (memRead_eq_some a n s _).2 ⟨h, rfl⟩

/-- The accepted and the rejected header (R113). -/
theorem execHdec_cases (s : State) :
    (s.hcheckPasses (hdecPort s.hb) (hdecChan s.hb) = true ∧
      execHdec s = .next ((s.setHdr (hdecPort s.hb) (hdecChan s.hb) 1#1).setStatus 0#3 0#3)) ∨
    (s.hcheckPasses (hdecPort s.hb) (hdecChan s.hb) = false ∧ execHdec s = .next (s.setStatus 2#3 1#3)) := by
  by_cases h : s.hcheckPasses (hdecPort s.hb) (hdecChan s.hb) = true
  · exact .inl ⟨h, by simp [execHdec, h, complete]⟩
  · exact .inr ⟨by simpa using h, by simp [execHdec, h, raise, CmdError.code, Category.code]⟩

/-- The right and the wrong length (R124). -/
theorem execPlddec_cases (s : State) :
    (s.len.toNat = 14 ∧
      execPlddec s = .next (((s.setCmdFields (pkBytes 0 14 s) s.byteOrder).setPv 1#1).setStatus 0#3 0#3)) ∨
    (s.len.toNat ≠ 14 ∧ execPlddec s = .next (s.setStatus 1#3 2#3)) := by
  by_cases h : s.len.toNat = 14
  · exact .inl ⟨h, by simp [execPlddec, h, memRead_eq, complete]⟩
  · exact .inr ⟨h, by simp [execPlddec, h, raise, CmdError.code, Category.code]⟩

/-- The remainder of a packet (R132): none to decode, the wrong length, or the commander payload. -/
theorem decodeRemainder_cases (p : BitVec 4) (c : BitVec 2) (s : State) :
    ((s.kind = 1#1 ∨ s.len.toNat = 1) ∧
      decodeRemainder p c s = .next (((s.setHdr p c 1#1).setPv 0#1).setStatus 0#3 0#3)) ∨
    (s.kind ≠ 1#1 ∧ s.len.toNat ≠ 1 ∧ s.len.toNat - 1 ≠ 14 ∧
      decodeRemainder p c s = .next (s.setStatus 1#3 2#3)) ∨
    (s.kind ≠ 1#1 ∧ s.len.toNat = 15 ∧ decodeRemainder p c s = .next
      ((((s.setHdr p c 1#1).setCmdFields (pkBytes 1 14 s) s.byteOrder).setPv 1#1).setStatus 0#3 0#3)) := by
  by_cases h : s.kind = 1#1 ∨ s.len.toNat = 1
  · exact .inl ⟨h, by simp [decodeRemainder, h, complete]⟩
  · obtain ⟨hk, h1⟩ := not_or.1 h
    by_cases hl : s.len.toNat - 1 = 14
    · refine .inr (.inr ⟨hk, by omega, ?_⟩)
      simp [decodeRemainder, hk, h1, hl, memRead_eq, complete]
    · refine .inr (.inl ⟨hk, h1, hl, ?_⟩)
      simp [decodeRemainder, hk, h1, hl, raise, CmdError.code, Category.code]

/-- The empty packet, the rejected header, and the packet whose header is accepted (R132). -/
theorem execPktdec_cases (s : State) :
    (s.len.toNat = 0 ∧ execPktdec s = .next (((s.setHv 0#1).setPv 0#1).setStatus 0#3 0#3)) ∨
    (s.len.toNat ≠ 0 ∧ s.hcheckPasses (hdecPort (s.pkByte 0)) (hdecChan (s.pkByte 0)) = false ∧
      execPktdec s = .next (s.setStatus 2#3 1#3)) ∨
    (s.len.toNat ≠ 0 ∧ s.hcheckPasses (hdecPort (s.pkByte 0)) (hdecChan (s.pkByte 0)) = true ∧
      execPktdec s = decodeRemainder (hdecPort (s.pkByte 0)) (hdecChan (s.pkByte 0)) s) := by
  by_cases h : s.len.toNat = 0
  · exact .inl ⟨h, by simp [execPktdec, h, complete]⟩
  · by_cases hc : s.hcheckPasses (hdecPort (s.pkByte 0)) (hdecChan (s.pkByte 0)) = true
    · exact .inr (.inr ⟨h, hc, by simp [execPktdec, h, hc]⟩)
    · exact .inr (.inl ⟨h, by simpa using hc, by simp [execPktdec, h, hc, raise, CmdError.code, Category.code]⟩)

/-- Storing at most 32 bytes answers the state with PK written from 0 on and LEN their number (R123, R131). -/
theorem storeBuffer_next (out : List Byte) (s : State) (h : out.length ≤ 32) :
    storeBuffer out s = .next (((s.setPk (Memory.writeBytes s.pk Config.pkBase out)).setLen
      (BitVec.ofNat 6 out.length)).setStatus 0#3 0#3) := by
  simp [storeBuffer, memWrite, h, complete]

/-- What a storing command leaves of the rest of the state. (For any buffer `m`: cite it rather than have Lean unfold the
buffer written.) -/
theorem stored_frame (s : State) (m : Memory) (n : BitVec 6) :
    ((s.setPk m).setLen n).setStatus 0#3 0#3
      = { s with pk := (((s.setPk m).setLen n).setStatus 0#3 0#3).pk, len := n, err := 0#3, cat := 0#3 } := rfl

theorem stored_pkByte (s : State) (m : Memory) (n : BitVec 6) (e c : BitVec 3) (i : Nat) :
    (((s.setPk m).setLen n).setStatus e c).pkByte i = (s.setPk m).pkByte i := rfl

theorem execPldenc_next (s : State) : execPldenc s = .next (((s.setPk (Memory.writeBytes s.pk Config.pkBase
    (s.cmdBytes s.byteOrder))).setLen 14#6).setStatus 0#3 0#3) := by
  simp [execPldenc, storeBuffer_next]

theorem execPktenc_next (s : State) : execPktenc s = .next (((s.setPk (Memory.writeBytes s.pk Config.pkBase
    s.packetBytes)).setLen (BitVec.ofNat 6 s.packetBytes.length)).setStatus 0#3 0#3) :=
  storeBuffer_next _ s (s.packetBytes_length_le.trans (by decide))

end Sys2Proof.Machine
end

