-- ==== Sys2Proof/Laws/HostPort.lean ====
section
/-! SUPPORT. The host port: the address map inverted, what an access can do, and what the step does with an event. -/

namespace Sys2Proof.Machine

/-- Every register stands at its own address (R20, R51). -/
theorem target_addr (r : Reg) : target r.addr = .reg r := by cases r <;> rfl

theorem aligned_addr (r : Reg) : aligned r.addr = true := by cases r <;> rfl

/-- The address map of R51, read backwards. -/
theorem target_cases (a : Addr) :
    (∃ r, target a = .reg r ∧ a.toNat < 0x38) ∨
    (target a = .pk (a.toNat - 0x40) ∧ 0x40 ≤ a.toNat ∧ a.toNat < 0x60) ∨
    (target a = .unmapped ∧ 0x38 ≤ a.toNat ∧ ¬ (0x40 ≤ a.toNat ∧ a.toNat < 0x60)) := by
  by_cases h : 0x40 ≤ a.toNat ∧ a.toNat < 0x60
  · exact .inr (.inl ⟨by simp [target, h], h⟩)
  · by_cases h' : a.toNat < 0x38
    · have hk : a.toNat / 4 < 14 := by omega
      have : ∃ r, regOfWord (a.toNat / 4) = some r := by
        generalize a.toNat / 4 = k at hk
        interval_cases k <;> exact ⟨_, rfl⟩
      obtain ⟨r, hr⟩ := this
      exact .inl ⟨r, by simp [target, h, hr], h'⟩
    · have hk : 14 ≤ a.toNat / 4 := by omega
      have : regOfWord (a.toNat / 4) = none := by
        generalize a.toNat / 4 = k at hk
        unfold regOfWord
        split <;> first | rfl | omega
      exact .inr (.inr ⟨by simp [target, h, this], by omega, h⟩)

/-- R52's alignment, as a number. -/
theorem aligned_iff (a : Addr) : aligned a = true ↔ a.toNat % 4 = 0 := by
  rw [aligned, beq_iff_eq, ← BitVec.toNat_inj, BitVec.extractLsb'_toNat]
  simp

@[simp] theorem respond_eq (r : Response) (s : State) : respond r s = .next { s with response := some r } := rfl

@[simp] theorem busError_eq (s : State) : busError s = .next { s with response := some .busError } := rfl

/-- With an event pending, the step takes it off the list and gives it to the block. -/
theorem step_cons {s : State} {e : HostEvent} {rest : List HostEvent} (h : s.pending = e :: rest) :
    step s = hostEvent e { s with pending := rest } := by
  simp [step, hostStep, h]

theorem step_nil {s : State} (h : s.pending = []) : step s = .next s := by
  simp [step, hostStep, h]

/-- A write to CMD runs the command its word decodes to, and an illegal word raises IllegalCommand. -/
theorem wr32_cmd (w : Word) (s : State) :
    wr32 Config.cmdAddr w s = match decode w with
      | .ok i => exec i { s with response := some .done }
      | .error _ => raise .illegalCommand .command { s with response := some .done } := rfl

/-- LEN after a host write to PKLEN is legal. -/
theorem legalLen_le (w : Word) : (legalLen w).toNat ≤ 32 := by
  unfold legalLen; split <;> simp_all

end Sys2Proof.Machine
end

