-- ==== Sys2Proof/Laws/Events.lean ====
section
/-! SUPPORT. No event reads what is still pending (20_memory.md R60): under another pending list it has the same effect,
and it leaves that list as it is. -/

namespace Sys2Proof.Machine

/-- An outcome with another pending list in its next state. -/
def setPendingOf (p : List HostEvent) (o : Host.Outcome State Fault Refusal) : Host.Outcome State Fault Refusal :=
  match o with
  | .next t => .next { t with pending := p }
  | .fault r => .fault r
  | .refused r => .refused r

theorem storeBuffer_pending (out : List Byte) (p : List HostEvent) (s : State) :
    storeBuffer out { s with pending := p } = setPendingOf p (storeBuffer out s) := by
  unfold storeBuffer memWrite; split_ifs <;> rfl

theorem decodeRemainder_pending (q : BitVec 4) (c : BitVec 2) (p : List HostEvent) (s : State) :
    decodeRemainder q c { s with pending := p } = setPendingOf p (decodeRemainder q c s) := by
  unfold decodeRemainder; dsimp only; split_ifs <;> rfl

/-- A command's effect does not depend on the pending list, and leaves it. -/
theorem exec_pending (i : Instr) (p : List HostEvent) (s : State) :
    exec i { s with pending := p } = setPendingOf p (exec i s) := by
  cases i
  case nop => rfl
  case henc => rfl
  case hdec => rw [exec, exec, execHdec, execHdec, apply_ite (setPendingOf p)]; rfl
  case f32enc off => simp only [exec, execF32enc, encodeField_eq]; split_ifs <;> rfl
  case f32dec off => simp only [exec, execF32dec, decodeField_eq]; split_ifs <;> rfl
  case u16enc off => simp only [exec, execU16enc, encodeField_eq]; split_ifs <;> rfl
  case u16dec off => simp only [exec, execU16dec, decodeField_eq]; split_ifs <;> rfl
  case pldenc => exact storeBuffer_pending (s.cmdBytes s.byteOrder) p s
  case plddec => simp only [exec, execPlddec]; split_ifs <;> rfl
  case pktenc => exact storeBuffer_pending s.packetBytes p s
  case pktdec =>
    rw [exec, exec, execPktdec, execPktdec, apply_ite (setPendingOf p), apply_ite (setPendingOf p),
      ← decodeRemainder_pending]
    rfl

/-- An event's effect does not depend on the pending list, and leaves it. -/
theorem hostEvent_pending (e : HostEvent) (p : List HostEvent) (s : State) :
    hostEvent e { s with pending := p } = setPendingOf p (hostEvent e s) := by
  cases e with
  | reset => rfl
  | access x =>
    cases x with
    | rd32 a =>
      simp only [hostEvent, hostAccess, rd32]
      split
      · split
        · rename_i r _; cases r <;> rfl
        · rfl
        · rfl
      · rfl
    | wr32 a w =>
      simp only [hostEvent, hostAccess, wr32]
      split
      · split
        · simp only [runCommand]
          split
          · exact exec_pending _ p (s.setResponse .done)
          · rfl
        · rename_i r _ _; cases r <;> rfl
        · rfl
        · rfl
      · rfl
    | rd8 a => simp only [hostEvent, hostAccess, rd8]; split <;> rfl
    | wr8 a b => simp only [hostEvent, hostAccess, wr8]; split <;> rfl
    | otherWidth n a => rfl

end Sys2Proof.Machine
end

