-- ==== Sys2Proof/Laws/PerInstr.lean ====
section
/-! SUPPORT. EncodingMatchesRow: the word of a well-formed command matches the command's row of the opcode map under the
row's mask (30_encoding.md R74, R77), constructor by constructor. -/

namespace Sys2Proof.Laws

/-- A command's word matches its row. -/
def EncodingMatchesRow.Statement (i : Instr) : Prop := i.wf = true → i.row.matches (encode i) = true

theorem EncodingMatchesRow.nop : EncodingMatchesRow.Statement .nop := fun _ => rfl

theorem EncodingMatchesRow.henc : EncodingMatchesRow.Statement .henc := fun _ => rfl

theorem EncodingMatchesRow.hdec : EncodingMatchesRow.Statement .hdec := fun _ => rfl

/-- For a row with an OFF field: it is enough to look at the 32 offsets. -/
theorem offRow_matches {r : OpRow} {op : Nat} (off : Nat) (hw : offWf off = true)
    (h : ∀ k < 32, r.matches (BitVec.ofNat 32 (k <<< 8) ||| BitVec.ofNat 32 op) = true) :
    r.matches (BitVec.ofNat 32 (off <<< 8) ||| BitVec.ofNat 32 op) = true :=
  h off (by simpa [offWf] using hw)

theorem EncodingMatchesRow.f32enc (off : Nat) : EncodingMatchesRow.Statement (.f32enc off) :=
  fun hw => offRow_matches (r := (Instr.f32enc 0).row) (op := 0x3) off hw (by decide)

theorem EncodingMatchesRow.f32dec (off : Nat) : EncodingMatchesRow.Statement (.f32dec off) :=
  fun hw => offRow_matches (r := (Instr.f32dec 0).row) (op := 0x4) off hw (by decide)

theorem EncodingMatchesRow.u16enc (off : Nat) : EncodingMatchesRow.Statement (.u16enc off) :=
  fun hw => offRow_matches (r := (Instr.u16enc 0).row) (op := 0x5) off hw (by decide)

theorem EncodingMatchesRow.u16dec (off : Nat) : EncodingMatchesRow.Statement (.u16dec off) :=
  fun hw => offRow_matches (r := (Instr.u16dec 0).row) (op := 0x6) off hw (by decide)

theorem EncodingMatchesRow.pldenc : EncodingMatchesRow.Statement .pldenc := fun _ => rfl

theorem EncodingMatchesRow.plddec : EncodingMatchesRow.Statement .plddec := fun _ => rfl

theorem EncodingMatchesRow.pktenc : EncodingMatchesRow.Statement .pktenc := fun _ => rfl

theorem EncodingMatchesRow.pktdec : EncodingMatchesRow.Statement .pktdec := fun _ => rfl

end Sys2Proof.Laws
end

