-- ==== Sys2Proof/Laws/Wire.lean ====
section
/-! SUPPORT. The statements' arithmetic terms (Safety.lean), field by field, and what they say of the model's own codecs. -/

namespace Sys2Proof.Machine

theorem wireValue_four (e : BitVec 1) (b : Nat → Nat) : wireValue e 4 b = if e = 0#1
    then b 0 + 256 * b 1 + 65536 * b 2 + 16777216 * b 3 else b 3 + 256 * b 2 + 65536 * b 1 + 16777216 * b 0 := by
  have hr : List.range 4 = [0, 1, 2, 3] := rfl
  by_cases h : e = 0#1 <;>
    simp only [wireValue, hr, List.map_cons, List.map_nil, List.sum_cons, List.sum_nil, h, if_true, if_false] <;> omega

theorem wireValue_two (e : BitVec 1) (b : Nat → Nat) : wireValue e 2 b = if e = 0#1
    then b 0 + 256 * b 1 else b 1 + 256 * b 0 := by
  have hr : List.range 2 = [0, 1] := rfl
  by_cases h : e = 0#1 <;>
    simp only [wireValue, hr, List.map_cons, List.map_nil, List.sum_cons, List.sum_nil, h, if_true, if_false] <;> omega

/-- A byte of R12's list is the wire byte of R63. -/
theorem byteAt_toNat {w : Nat} (n : Nat) (v : BitVec w) (s : State) (k : Nat) :
    (byteAt n v s.byteOrder k).toNat = wireByte s.endian n v.toNat k := by
  unfold byteAt wireByte State.byteOrder
  split <;> split <;> simp_all [BitVec.extractLsb'_toNat, Nat.shiftRight_eq_div_pow, pow_mul]

theorem endian_cases (s : State) :
    (s.endian = 0#1 ∧ s.byteOrder = .le) ∨ (s.endian = 1#1 ∧ s.byteOrder = .be) := by
  rcases BitVec.eq_zero_or_eq_one s.endian with h | h
  · exact .inl ⟨h, by simp [State.byteOrder, h]⟩
  · exact .inr ⟨h, by simp [State.byteOrder, h]⟩

@[simp] theorem pkBytes_length (a n : Nat) (s : State) : (pkBytes a n s).length = n := by simp [pkBytes]

theorem pkBytes_four (a : Nat) (s : State) :
    pkBytes a 4 s = [s.pkByte a, s.pkByte (a + 1), s.pkByte (a + 2), s.pkByte (a + 3)] := rfl

theorem pkBytes_two (a : Nat) (s : State) : pkBytes a 2 s = [s.pkByte a, s.pkByte (a + 1)] := rfl

/-- The value of four bytes of PK is the wire value of R63. -/
theorem valueOf_pkBytes_four (s : State) (a : Nat) : (valueOf 32 (pkBytes a 4 s) s.byteOrder).toNat
    = wireValue s.endian 4 (fun k => s.pkNat (a + k)) := by
  rw [valueOf_toNat _ _ _ (by simp), pkBytes_four, wireValue_four]
  rcases endian_cases s with ⟨h, h'⟩ | ⟨h, h'⟩ <;> simp [h, h', natLe, State.pkNat] <;> omega

theorem valueOf_pkBytes_two (s : State) (a : Nat) : (valueOf 16 (pkBytes a 2 s) s.byteOrder).toNat
    = wireValue s.endian 2 (fun k => s.pkNat (a + k)) := by
  rw [valueOf_toNat _ _ _ (by simp), pkBytes_two, wireValue_two]
  rcases endian_cases s with ⟨h, h'⟩ | ⟨h, h'⟩ <;> simp [h, h', natLe, State.pkNat]

/-- The model's header check is R113's, on the header byte. -/
theorem hcheckPasses_iff (s : State) (b : Byte) :
    s.hcheckPasses (hdecPort b) (hdecChan b) = true ↔ s.HeaderAccepted b.toNat := by
  simp [State.hcheckPasses, State.recognized, State.HeaderAccepted, hdecPort_toNat, hdecChan_toNat]

end Sys2Proof.Machine
end

