-- ==== Sys2Proof/Tests/Slice0.lean ====
section
/-! SUPPORT. Tests: the ill-formed operands, a word for each command written out from the spec's encoding, a few of the
spec's own test vectors (95_test_vectors.md, whose ids stand in the comments), and for every statement with hypotheses a
state and operands that meet them. -/

namespace Sys2Proof.Tests

open Sys2Proof.Machine

/-! ### Helpers -/

/-- The next state of an outcome (reset for an outcome that has none: each test says that there is one). -/
def after (o : Host.Outcome State Fault Refusal) : State :=
  match o with
  | .next t => t
  | .fault _ => State.reset
  | .refused _ => State.reset

/-- There is a next state. -/
def runs (o : Host.Outcome State Fault Refusal) : Bool :=
  match o with
  | .next _ => true
  | .fault _ => false
  | .refused _ => false

/-- Some view of the next state, and none where there is no next state. -/
def view {α : Type} (f : State → α) (o : Host.Outcome State Fault Refusal) : Option α :=
  match o with
  | .next t => some (f t)
  | .fault _ => none
  | .refused _ => none

/-- `PK[0 ..]` loaded with bytes, and LEN set. -/
def loaded (bs : List Byte) (n : BitVec 6) (s : State) : State :=
  { s with pk := Memory.writeBytes [] 0x40 bs, len := n }

/-- `n` bytes of PK from index `a` on. -/
def bytes (a n : Nat) (s : State) : List Byte := (List.range n).map fun k => s.pkByte (a + k)

/-- STATUS as RD32 reads it. -/
def status (s : State) : Word := readReg .status s

/-- The reset state with one access pending, and another one behind it. -/
def before (x : HostAccess) : State := { State.reset with pending := [.access x, .reset] }

/-- LEN = 32 and a field value (FC-3). -/
def field32 : State := { State.reset with len := 32#6, fv := 0x11223344#32 }

/-- The start state of PK-1: header and payload present. -/
def packet : State :=
  { State.reset with port := 3#4, hv := 1#1, roll := 0x3F800000#32, pitch := 0xBF800000#32, thrust := 0xC350#16,
                     pv := 1#1 }

/-- The payload bytes of S6-a. -/
def payload14 : List Byte :=
  [0x00, 0x00, 0x80, 0x3F, 0x00, 0x00, 0x80, 0xBF, 0x00, 0x00, 0x00, 0x00, 0x50, 0xC3]

/-- The packet bytes of PK-1, with a header byte of choice. -/
def wire15 (h : Byte) : State := loaded (h :: payload14) 15#6 State.reset

/-- HCHK = 1 with Port 3 alone recognized (PK-13). -/
def checked (s : State) : State := { s with hchk := 1#1, portOk := 0x0008#16 }

/-! ### Ill-formed operands are refused (R77, R80) -/

theorem test_wf_f32enc : (Instr.f32enc 32).wf = false := by decide
theorem test_wf_f32dec : (Instr.f32dec 32).wf = false := by decide
theorem test_wf_u16enc : (Instr.u16enc 32).wf = false := by decide
theorem test_wf_u16dec : (Instr.u16dec 256).wf = false := by decide
theorem test_wf_last_offset : (Instr.f32enc 31).wf = true := by decide
theorem test_wf_statement_command : (Statement.command (.u16dec 32)).wf = false := by decide
theorem test_wf_sethdr_port : (Statement.setHdr 16 0).wf = false := by decide
theorem test_wf_sethdr_chan : (Statement.setHdr 0 4).wf = false := by decide
theorem test_wf_sethdr_port_alone : (Statement.setHdrPort 16).wf = false := by decide
theorem test_wf_loadpk : (Statement.loadPk (List.replicate 33 0#8)).wf = false := by decide

/-! ### Words written out from the encoding: bits 31:13 zero, OFF in 12:8, 7:4 zero, OP in 3:0 (R70, R74) -/

theorem test_decode_nop : decode 0b00000000000000000000000000000000#32 = .ok .nop := by rfl
theorem test_decode_henc : decode 0b00000000000000000000000000000001#32 = .ok .henc := by rfl
theorem test_decode_hdec : decode 0b00000000000000000000000000000010#32 = .ok .hdec := by rfl
theorem test_decode_f32enc : decode 0b00000000000000000001110000000011#32 = .ok (.f32enc 28) := by rfl
theorem test_decode_f32dec : decode 0b00000000000000000000000100000100#32 = .ok (.f32dec 1) := by rfl
theorem test_decode_u16enc : decode 0b00000000000000000001111000000101#32 = .ok (.u16enc 30) := by rfl
theorem test_decode_u16dec : decode 0b00000000000000000001111100000110#32 = .ok (.u16dec 31) := by rfl
theorem test_decode_pldenc : decode 0b00000000000000000000000000000111#32 = .ok .pldenc := by rfl
theorem test_decode_plddec : decode 0b00000000000000000000000000001000#32 = .ok .plddec := by rfl
theorem test_decode_pktenc : decode 0b00000000000000000000000000001001#32 = .ok .pktenc := by rfl
theorem test_decode_pktdec : decode 0b00000000000000000000000000001010#32 = .ok .pktdec := by rfl
theorem test_encode_f32enc : encode (.f32enc 28) = 0x00001C03#32 := by decide
theorem test_encode_pktdec : encode .pktdec = 0x0000000A#32 := by decide
/-- CT-2 to CT-12. -/
theorem test_decode_illegal : [0x0000000B#32, 0x0000000C#32, 0x0000000F#32, 0x00000010#32, 0x000000F0#32, 0x00000101#32,
    0x00000109#32, 0x80000009#32, 0x00002003#32, 0x00002000#32, 0x00001F01#32].all
      (fun w => (decode w).toOption.isNone) = true := by decide
theorem test_decodeTableWord : decodeTableWord 32 0x00001C03 = some (.f32enc 28) := by decide

/-! ### One command (95_test_vectors.md sections 3.1 to 3.5) -/

/-- CT-1. -/
theorem test_nop : view status (exec .nop { State.reset with err := 1#3, cat := 2#3 }) = some 0#32 := by decide
/-- HD-1. -/
theorem test_henc : view State.hb (exec .henc { State.reset with port := 15#4, chan := 3#2, hv := 1#1 })
    = some 0xF3#8 := by decide
/-- HD-4. -/
theorem test_henc_fields : view State.hb (exec .henc { State.reset with port := 1#4, chan := 2#2 }) = some 0x12#8 := by
  decide
/-- HD-16. -/
theorem test_hdec : view (readReg .hdr) (exec .hdec { State.reset with hb := 0x5E#8 }) = some 0x125#32 := by decide
/-- HD-20. -/
theorem test_hdec_rejects : view (fun t => (status t, readReg .hdr t))
    (exec .hdec { State.reset with hchk := 1#1, chanOk := 0x7#4, hb := 0x13#8 }) = some (0x12#32, 0#32) := by decide
/-- FC-3. -/
theorem test_f32enc : view (bytes 28 4) (exec (.f32enc 28) field32) = some [0x44, 0x33, 0x22, 0x11] := by decide
/-- FC-4. -/
theorem test_f32enc_raises : view (fun t => (status t, t.pk)) (exec (.f32enc 29) field32) = some (0x33#32, []) := by
  decide
/-- FC-9. -/
theorem test_f32dec_be : view State.fv (exec (.f32dec 0)
    { loaded [0x78, 0x56, 0x34, 0x12] 4#6 State.reset with endian := 1#1 }) = some 0x78563412#32 := by decide
/-- FC-10. -/
theorem test_f32dec_raises : view (fun t => (status t, t.fv)) (exec (.f32dec 1)
    { loaded [0x78, 0x56, 0x34, 0x12] 4#6 State.reset with fv := 0xAAAAAAAA#32 }) = some (0x32#32, 0xAAAAAAAA#32) := by
  decide
/-- FC-11. -/
theorem test_u16enc : view (bytes 0 2) (exec (.u16enc 0) { State.reset with len := 2#6, fv := 0x1234C350#32 })
    = some [0x50, 0xC3] := by decide
/-- FC-14. -/
theorem test_u16enc_raises : view status (exec (.u16enc 31) field32) = some 0x43#32 := by decide
/-- FC-16. -/
theorem test_u16dec_zero_extends : view State.fv (exec (.u16dec 0)
    { loaded [0xFF, 0xFF] 2#6 State.reset with fv := 0xAAAAAAAA#32 }) = some 0x0000FFFF#32 := by decide
/-- FC-18. -/
theorem test_u16dec_be : view State.fv (exec (.u16dec 0)
    { loaded [0x12, 0x34] 2#6 State.reset with endian := 1#1 }) = some 0x00001234#32 := by decide
/-- PL-1. -/
theorem test_pldenc : view (fun t => (t.len, bytes 0 14 t)) (exec .pldenc { packet with pv := 0#1 })
    = some (14#6, payload14) := by decide
/-- PL-6. -/
theorem test_plddec_be : view (fun t => (t.roll, t.pitch, t.yaw, t.thrust, t.pv))
    (exec .plddec { loaded payload14 14#6 State.reset with endian := 1#1 })
    = some (0x0000803F#32, 0x000080BF#32, 0#32, 0x50C3#16, 1#1) := by decide
/-- PK-2. -/
theorem test_pktenc_be : view (fun t => (t.len, bytes 0 15 t)) (exec .pktenc { packet with endian := 1#1 })
    = some (15#6, [0x30, 0x3F, 0x80, 0x00, 0x00, 0xBF, 0x80, 0x00, 0x00, 0x00, 0x00, 0x00, 0x00, 0xC3, 0x50]) := by
  decide
/-- PK-6. -/
theorem test_pktenc_no_header : view (fun t => (t.len, bytes 0 14 t)) (exec .pktenc { packet with port := 0#4, hv := 0#1 })
    = some (14#6, payload14) := by decide
/-- PK-21. -/
theorem test_pktdec : view (fun t => (readReg .hdr t, t.roll, t.pitch, t.thrust, t.pv)) (exec .pktdec (wire15 0x30))
    = some (0x103#32, 0x3F800000#32, 0xBF800000#32, 0xC350#16, 1#1) := by decide
/-- PK-13: the header check runs before the length check. -/
theorem test_pktdec_header_first : view status (exec .pktdec (checked (loaded [0x51, 1, 2, 3, 4] 5#6 State.reset)))
    = some 0x12#32 := by decide

/-! ### One host access (95_test_vectors.md sections 3.5 to 3.7) -/

/-- CT-7. -/
theorem test_cmd_illegal : view (fun t => (status t, t.hb)) (step (before (.wr32 0x04#7 0x00000101#32)))
    = some (0x54#32, 0#8) := by decide
/-- HA-2 and HA-5. -/
theorem test_pklen : view State.len (step (before (.wr32 0x2C#7 0x45#32))) = some 5#6 ∧
    view State.len (step (before (.wr32 0x2C#7 0xFFFFFFFF#32))) = some 32#6 := by decide
/-- HA-8. -/
theorem test_hdr_write : view (readReg .hdr) (step (before (.wr32 0x0C#7 0xFFFFFFFF#32))) = some 0x13F#32 := by decide
/-- HA-18. -/
theorem test_pk_lanes : view (bytes 0 4) (step (before (.wr32 0x40#7 0x44332211#32)))
    = some [0x11, 0x22, 0x33, 0x44] := by decide
/-- HA-23 to HA-29. -/
theorem test_bus_errors : [.rd32 0x42#7, .wr32 0x41#7 1#32, .rd32 0x38#7, .rd32 0x3C#7, .rd32 0x60#7, .rd32 0x7C#7,
    .rd8 0x00#7, .wr8 0x2C#7 1#8, .rd8 0x60#7].all (fun x => view State.response (step (before x))
      == some (some .busError)) = true := by decide
/-- RS-6. -/
theorem test_first_command : view status (step (State.reset.withFetchWord 32 0x00000004)) = some 0x32#32 := by decide

/-! ### States and operands that meet the statements' hypotheses -/

/-- The states the witnesses use meet the invariant. -/
theorem witness_Inv : State.reset.Inv ∧ field32.Inv ∧ packet.Inv ∧ (wire15 0x30).Inv ∧ (checked packet).Inv := by decide

/-- Equal outcomes of the form the statements use: a command that runs answers its next state. -/
theorem next_after {o : Host.Outcome State Fault Refusal} (h : runs o = true) : o = .next (after o) := by
  cases o <;> first | rfl | cases h

theorem witness_DecodeEncodeAgree : decode 0x00001F03#32 = .ok (.f32enc 31) ∧
    ((Instr.f32enc 31).wf = true ∧ encode (.f32enc 31) = 0x00001F03#32) ∧
    (Instr.nop.wf = true ∧ encode .nop = 0x00000000#32) := ⟨rfl, by decide, by decide⟩

theorem witness_LegalWordsAreTheRows : decode 0x00001F03#32 = .ok (.f32enc 31) ∧
    ∃ r ∈ opcodeMap, r.matches 0x00001F03#32 = true := ⟨rfl, (Instr.f32enc 31).row, by decide, by decide⟩

/-- One word for each cause of R76: OP above 0xA, a bit above OFF, a bit between OFF and OP, an OFF where there is none. -/
theorem witness_IllegalWordsRaise : ∀ w ∈ [0x0000000B#32, 0x00002003#32, 0x00000013#32, 0x0000010A#32],
    (¬ ∃ i, decode w = .ok i) ∧ (before (.wr32 0x04#7 w)).pending = .access (.wr32 0x04#7 w) :: [.reset] := by
  intro w hw
  refine ⟨?_, rfl⟩
  have h : [0x0000000B#32, 0x00002003#32, 0x00000013#32, 0x0000010A#32].all
      (fun w => (decode w).toOption.isNone) = true := by decide
  rintro ⟨i, hi⟩
  have := List.all_eq_true.1 h w hw
  rw [hi] at this
  cases this

theorem witness_StepRunsDecodedCommand :
    (before (.wr32 0x04#7 0x00001C03#32)).pending = .access (.wr32 0x04#7 0x00001C03#32) :: [.reset] ∧
    decode 0x00001C03#32 = .ok (.f32enc 28) := ⟨rfl, rfl⟩

theorem witness_FetchWordRunsNext : decodeTableWord 32 0x0000000A = some .pktdec := by decide

theorem witness_IdleStepChangesNothing : State.reset.pending = [] := by decide

/-- Accepted without a check, accepted with one, and rejected. -/
theorem witness_NopOnlyClearsStatus : (0x00000100#32).toNat % 16 = 0 ∧ 0x00000100#32 ≠ 0x00000000#32 := by decide

theorem witness_HdecUnpacksOrRaises : { State.reset with hb := 0xF3#8 }.HeaderAccepted 0xF3 ∧
    (checked State.reset).HeaderAccepted 0x30 ∧ ¬ (checked State.reset).HeaderAccepted 0x20 := by
  unfold State.HeaderAccepted; decide

theorem witness_ReservedHeaderBitsIgnored :
    (0x3C#8 &&& 0xF3#8 = ({ State.reset with hb := 0x30#8 } : State).hb &&& 0xF3#8 ∧
      runs (exec .hdec { State.reset with hb := 0x30#8 }) = true) ∧
    (({ wire15 0x30 with pk := (wire15 0x3C).pk } : State).pkByte 0 &&& 0xF3#8 = (wire15 0x30).pkByte 0 &&& 0xF3#8 ∧
      (∀ j, 0 < j → ({ wire15 0x30 with pk := (wire15 0x3C).pk } : State).pkByte j = (wire15 0x30).pkByte j) ∧
      runs (exec .pktdec (wire15 0x30)) = true) := by
  refine ⟨by decide, by decide, ?_, by decide⟩
  intro j hj
  have hm : (wire15 0x3C).pk = (0x40, 0x3C#8) :: (wire15 0x30).pk.tail ∧
      (wire15 0x30).pk = (0x40, 0x30#8) :: (wire15 0x30).pk.tail := by decide
  simp only [State.pkByte, Config.pkBase_eq]
  rw [hm.1, hm.2]
  simp [Memory.readByte, Nat.ne_of_gt hj]

/-- HENC, then HDEC without a check, with a check passed, with a check failed. -/
theorem witness_HeaderRoundTrip : runs (exec .henc packet) = true ∧
    (let t := after (exec .henc packet)
     t.hb = t.hb ∧ t.hchk = 0#1 ∧
     (checked t).hb = t.hb ∧ ((checked t).portOk.getLsbD packet.port.toNat = true ∧
       (checked t).chanOk.getLsbD packet.chan.toNat = true) ∧
     ({ checked t with portOk := 0#16 } : State).hb = t.hb ∧
     ¬ (({ checked t with portOk := 0#16 } : State).hchk = 0#1 ∨ (0#16).getLsbD packet.port.toNat = true)) := by decide

theorem witness_HeaderEncodeInjectiveNotOnto : runs (exec .henc packet) = true ∧
    (after (exec .henc packet)).hb = (after (exec .henc (checked packet))).hb ∧
    runs (exec .hdec { State.reset with hb := 0x3C#8 }) = true ∧
    (after (exec .hdec { State.reset with hb := 0x3C#8 })).err = 0#3 ∧
    runs (exec .henc (after (exec .hdec { State.reset with hb := 0x3C#8 }))) = true := by decide

/-- The last offset that fits and the first that does not, for LEN = 32, for each of the four field commands. -/
theorem witness_FieldBounds : field32.Inv ∧ 28 < 32 ∧ 28 + 4 ≤ field32.len.toNat ∧ 29 < 32 ∧
    field32.len.toNat < 29 + 4 ∧ 30 < 32 ∧ 30 + 2 ≤ field32.len.toNat ∧ 31 < 32 ∧ field32.len.toNat < 31 + 2 := by decide

theorem witness_FieldRoundTrip_f32 :
    exec (.f32enc 28) field32 = .next (after (exec (.f32enc 28) field32)) ∧ field32.Inv ∧
    (let t := after (exec (.f32enc 28) field32)
     let u : State := { t with fv := 0#32 }
     t.err = 0#3 ∧ u.len = t.len ∧ u.endian = t.endian ∧ ∀ k < 4, u.pkByte (28 + k) = t.pkByte (28 + k)) :=
  ⟨next_after (by decide), by decide, by decide⟩

theorem witness_FieldRoundTrip_u16 :
    exec (.u16enc 30) field32 = .next (after (exec (.u16enc 30) field32)) ∧ field32.Inv ∧
    (let t := after (exec (.u16enc 30) field32)
     let u : State := { t with fv := 0#32 }
     t.err = 0#3 ∧ u.len = t.len ∧ u.endian = t.endian ∧ ∀ k < 2, u.pkByte (30 + k) = t.pkByte (30 + k)) :=
  ⟨next_after (by decide), by decide, by decide⟩

theorem witness_OtherByteOrderReversesField :
    exec (.f32enc 0) field32 = .next (after (exec (.f32enc 0) field32)) ∧
    exec (.u16enc 0) field32 = .next (after (exec (.u16enc 0) field32)) ∧ field32.Inv ∧
    (let t := after (exec (.f32enc 0) field32)
     let u : State := { t with endian := 1#1 }
     t.err = 0#3 ∧ u.len = t.len ∧ u.endian ≠ t.endian ∧ ∀ k < 4, u.pkByte (0 + k) = t.pkByte (0 + k)) ∧
    (let t := after (exec (.u16enc 0) field32)
     let u : State := { t with endian := 1#1 }
     t.err = 0#3 ∧ u.len = t.len ∧ u.endian ≠ t.endian ∧ ∀ k < 2, u.pkByte (0 + k) = t.pkByte (0 + k)) :=
  ⟨next_after (by decide), next_after (by decide), by decide, by decide, by decide⟩

theorem witness_PldencStoresPayload : packet.Inv ∧ { packet with endian := 1#1 }.Inv := by decide

/-- The one right length and the lengths on both its sides, and the ends of the range. -/
theorem witness_PlddecLoadsOrRaises : (loaded payload14 14#6 State.reset).len = 14#6 ∧
    ∀ n ∈ [0#6, 13#6, 15#6, 32#6], (loaded payload14 n State.reset).len ≠ 14#6 := by decide

theorem witness_ThirteenOrFifteenBytesRejected : (loaded payload14 13#6 State.reset).len = 13#6 ∧
    (loaded payload14 15#6 State.reset).len = 15#6 := by decide

theorem witness_PayloadRoundTrip : exec .pldenc packet = .next (after (exec .pldenc packet)) ∧ packet.Inv ∧
    (let t := after (exec .pldenc packet)
     let u : State := { t with roll := 0#32, pv := 0#1 }
     u.len = t.len ∧ u.endian = t.endian ∧ ∀ k < 14, u.pkByte k = t.pkByte k) :=
  ⟨next_after (by decide), by decide, by decide⟩

/-- Header and payload, header alone, payload alone, nothing. -/
theorem witness_PktencFramesPacket : packet.Inv ∧ { packet with pv := 0#1 }.Inv ∧ { packet with hv := 0#1 }.Inv ∧
    { packet with hv := 0#1, kind := 1#1 }.Inv := by decide

/-- LEN = 0; a rejected header at LEN = 1; an accepted header at LEN = 1 and, for KIND = 1, at LEN = 15. -/
theorem witness_PktdecDecodesPacket_header : State.reset.len = 0#6 ∧
    ((checked (loaded [0x51] 1#6 State.reset)).len ≠ 0#6 ∧
      ¬ (checked (loaded [0x51] 1#6 State.reset)).HeaderAccepted 0x51 ∧
      (checked (loaded [0x51] 1#6 State.reset)).pkNat 0 = 0x51) ∧
    ((checked (loaded [0x30] 1#6 State.reset)).len = 1#6 ∧ (checked (loaded [0x30] 1#6 State.reset)).pkNat 0 = 0x30 ∧
      (checked (loaded [0x30] 1#6 State.reset)).HeaderAccepted 0x30) ∧
    ((wire15 0x71).len ≠ 0#6 ∧ ({ wire15 0x71 with kind := 1#1 } : State).HeaderAccepted 0x71 ∧
      ({ wire15 0x71 with kind := 1#1 } : State).pkNat 0 = 0x71) := by
  unfold State.HeaderAccepted; decide

/-- LEN = 15, and the wrong lengths from 2 to 32, with an accepted header and KIND = 0. -/
theorem witness_PktdecDecodesPacket_payload :
    ((wire15 0x30).kind = 0#1 ∧ (wire15 0x30).HeaderAccepted ((wire15 0x30).pkNat 0) ∧ (wire15 0x30).len = 15#6) ∧
    ∀ n ∈ [2#6, 14#6, 16#6, 32#6], ({ wire15 0x30 with len := n } : State).kind = 0#1 ∧
      ({ wire15 0x30 with len := n } : State).HeaderAccepted (({ wire15 0x30 with len := n } : State).pkNat 0) ∧
      n ≠ 0#6 ∧ n ≠ 1#6 ∧ n ≠ 15#6 := by
  unfold State.HeaderAccepted; decide

/-- With a header and without one; a buffer that agrees in `PK[0]` only; the ends of LEN's range. -/
theorem witness_HeaderOnlyKindHasNoPayload : { wire15 0x71 with kind := 1#1 }.Inv ∧
    ({ packet with kind := 1#1 } : State).kind = 1#1 ∧ ({ packet with kind := 1#1 } : State).hv = 1#1 ∧
    ({ State.reset with kind := 1#1 } : State).hv = 0#1 ∧
    ({ wire15 0x71 with pk := (loaded [0x71] 1#6 State.reset).pk } : State).pkByte 0 = (wire15 0x71).pkByte 0 ∧
    (wire15 0x71).len ≠ 0#6 ∧ 1#6 ≠ 0#6 ∧ 32#6 ≠ 0#6 ∧
    view State.err (exec .pktdec { wire15 0x71 with kind := 1#1 }) = some 0#3 := by decide

theorem witness_EmptyPacketRoundTrip : ({ packet with len := 0#6 } : State).len = 0#6 := by decide

/-- The hypotheses shared by the cases of R135: a packet encoded, and a decoding state with the same bytes, length and
control register. -/
def Reached (s u : State) : Prop :=
  let t := after (exec .pktenc s)
  s.Inv ∧ runs (exec .pktenc s) = true ∧ u.len = t.len ∧ u.endian = t.endian ∧ u.hchk = t.hchk ∧ u.kind = t.kind ∧
    ∀ k < t.len.toNat, u.pkByte k = t.pkByte k

theorem witness_PacketRoundTrip_both : Reached packet (after (exec .pktenc packet)) ∧
    packet.kind = 0#1 ∧ packet.hv = 1#1 ∧ packet.pv = 1#1 ∧
    (after (exec .pktenc packet)).HeaderAccepted (16 * packet.port.toNat + packet.chan.toNat) := by
  unfold Reached State.HeaderAccepted; decide

theorem witness_PacketRoundTrip_header : Reached { packet with kind := 1#1 } (after (exec .pktenc { packet with kind := 1#1 }))
    ∧ Reached { packet with pv := 0#1 } (after (exec .pktenc { packet with pv := 0#1 })) ∧
    (after (exec .pktenc { packet with pv := 0#1 })).HeaderAccepted 0x30 := by
  unfold Reached State.HeaderAccepted; decide

theorem witness_PacketRoundTrip_rejected : Reached (checked { packet with port := 5#4 })
      (after (exec .pktenc (checked { packet with port := 5#4 }))) ∧
    ¬ (after (exec .pktenc (checked { packet with port := 5#4 }))).HeaderAccepted 0x50 := by
  unfold Reached State.HeaderAccepted; decide

theorem witness_PacketRoundTrip_nothing : Reached { packet with hv := 0#1, pv := 0#1 }
      (after (exec .pktenc { packet with hv := 0#1, pv := 0#1 })) ∧
    Reached { packet with hv := 0#1, kind := 1#1 } (after (exec .pktenc { packet with hv := 0#1, kind := 1#1 })) := by
  unfold Reached; decide

/-- PK-7, and the same with a check that Port 0, the payload's first byte, fails. -/
theorem witness_PacketRoundTrip_payload_alone : Reached { packet with hv := 0#1 } (after (exec .pktenc { packet with hv := 0#1 }))
    ∧ (after (exec .pktenc { packet with hv := 0#1 })).HeaderAccepted (packet.payloadWireByte 0) ∧
    Reached (checked { packet with hv := 0#1 }) (after (exec .pktenc (checked { packet with hv := 0#1 }))) ∧
    ¬ (after (exec .pktenc (checked { packet with hv := 0#1 }))).HeaderAccepted (packet.payloadWireByte 0) := by
  unfold Reached State.HeaderAccepted; decide

theorem witness_PacketCodecMatchesParts : runs (exec .pktdec (wire15 0x30)) = true ∧ runs (exec .pktenc packet) = true ∧
    (after (exec .pktdec (wire15 0x30))).err = 0#3 ∧ (after (exec .pktdec (wire15 0x30))).pv = 1#1 ∧
    (wire15 0x30).len ≠ 0#6 ∧ (wire15 0x30).len = 15#6 ∧
    ({ State.reset with hb := 0x30#8 } : State).hb = (wire15 0x30).pkByte 0 ∧
    runs (exec .hdec { State.reset with hb := 0x30#8 }) = true ∧
    (after (exec .hdec { State.reset with hb := 0x30#8 })).err = 0#3 ∧
    (loaded payload14 14#6 State.reset).endian = (wire15 0x30).endian ∧
    (loaded payload14 14#6 State.reset).len = 14#6 ∧
    (∀ k < 14, (loaded payload14 14#6 State.reset).pkByte k = (wire15 0x30).pkByte (1 + k)) ∧
    runs (exec .plddec (loaded payload14 14#6 State.reset)) = true := by decide

/-- A command that raises and one that does not; every kind of error of ErrorsHaveExactlyTheListedCauses occurs. -/
theorem witness_FailedCommandChangesOnlyStatus :
    [exec .plddec State.reset, exec (.f32dec 0) State.reset, exec (.u16enc 0) State.reset, exec .nop State.reset].map
      (view State.err) = [some 1#3, some 2#3, some 3#3, some 0#3] := by decide

theorem witness_ErrorsHaveExactlyTheListedCauses : view State.err (exec .hdec (checked State.reset)) = some 2#3 ∧
    view State.err (exec .pktdec (loaded [0x30, 0x00] 2#6 State.reset)) = some 1#3 ∧
    view State.err (exec (.u16dec 31) field32) = some 2#3 ∧ view State.err (exec (.f32enc 29) field32) = some 3#3 := by
  decide

theorem witness_OnlyCommandsWriteStatus : (before (.wr32 0x08#7 1#32)).pending = .access (.wr32 0x08#7 1#32) :: [.reset] ∧
    (∀ w, HostAccess.wr32 0x08#7 1#32 ≠ .wr32 0x04#7 w) ∧ runs (step (before (.wr32 0x08#7 1#32))) = true :=
  ⟨rfl, fun w h => by injection h with h1 _; exact absurd h1 (by decide), by decide⟩

theorem witness_CommandsWriteOnlyTheirRow : runs (exec .nop packet) = true ∧ Instr.nop ≠ .hdec ∧ Instr.nop ≠ .pktdec ∧
    Instr.nop ≠ .henc ∧ Instr.nop ≠ .plddec ∧ Instr.nop ≠ .pldenc ∧ Instr.nop ≠ .pktenc ∧
    (∀ off, Instr.nop ≠ .f32dec off ∧ Instr.nop ≠ .u16dec off) ∧
    (∀ off, Instr.nop ≠ .f32enc off ∧ Instr.nop ≠ .u16enc off) :=
  ⟨by decide, by decide, by decide, by decide, by decide, by decide, by decide,
    fun _ => ⟨Instr.noConfusion, Instr.noConfusion⟩, fun _ => ⟨Instr.noConfusion, Instr.noConfusion⟩⟩

theorem witness_OthersIgnoreHeaderByteAndFieldValue : runs (exec .pktdec (wire15 0x30)) = true ∧
    Instr.pktdec ≠ .henc ∧ Instr.pktdec ≠ .hdec ∧
    (∀ off, Instr.pktdec ≠ .f32enc off ∧ Instr.pktdec ≠ .f32dec off ∧ Instr.pktdec ≠ .u16enc off ∧
      Instr.pktdec ≠ .u16dec off) :=
  ⟨by decide, by decide, by decide,
    fun _ => ⟨Instr.noConfusion, Instr.noConfusion, Instr.noConfusion, Instr.noConfusion⟩⟩

theorem witness_KindAffectsOnlyPackets : Instr.pldenc ≠ .pktenc ∧ Instr.pldenc ≠ .pktdec ∧
    runs (exec .pldenc packet) = true := by decide

theorem witness_EndianDoesNotAffectHeader : (Instr.hdec = .nop ∨ Instr.hdec = .henc ∨ Instr.hdec = .hdec) ∧
    runs (exec .hdec State.reset) = true ∧ runs (exec .henc State.reset) = true := by decide

/-- A command that never checks, under HCHK = 1, and HDEC under HCHK = 0. -/
theorem witness_RecognizedSetsReadOnlyWhenChecked :
    (Instr.henc ≠ .hdec ∧ Instr.henc ≠ .pktdec ∧ runs (exec .henc (checked packet)) = true) ∧
    (State.reset.hchk ≠ 1#1 ∧ runs (exec .hdec State.reset) = true) := by decide

theorem witness_OnlyPktencReadsPresence : Instr.pktdec ≠ .pktenc ∧ runs (exec .pktdec (wire15 0x30)) = true := by decide

/-- A buffer that differs beyond LEN = 2 only. -/
theorem witness_DecodersIgnoreBytesBeyondLen :
    (∀ k < (loaded [1, 2] 2#6 State.reset).len.toNat,
      ({ loaded [1, 2] 2#6 State.reset with pk := (loaded [1, 2, 3] 0#6 State.reset).pk } : State).pkByte k
        = (loaded [1, 2] 2#6 State.reset).pkByte k) ∧
    runs (exec (.u16dec 0) (loaded [1, 2] 2#6 State.reset)) = true ∧
    runs (exec .pktdec (loaded [1, 2] 2#6 State.reset)) = true := by decide

theorem witness_EncodersIgnoreOldBuffer : packet.Inv ∧ (loaded [1, 2] 2#6 packet).Inv ∧
    loaded [1, 2] 2#6 packet = { packet with pk := (loaded [1, 2] 2#6 packet).pk, len := 2#6 } ∧
    runs (exec .pktenc packet) = true ∧ runs (exec .pktenc (loaded [1, 2] 2#6 packet)) = true := by decide

/-- Admitted at each end of a range; not admitted just outside it, misaligned, or of another width. -/
theorem witness_BusErrorExactlyWhenNotAdmitted :
    ([.rd32 0x00#7, .wr32 0x34#7 0#32, .rd32 0x40#7, .wr32 0x5C#7 0#32, .rd8 0x40#7, .wr8 0x5F#7 0#8].all admits = true) ∧
    [.rd32 0x38#7, .wr32 0x3C#7 0#32, .rd32 0x60#7, .rd32 0x42#7, .rd8 0x3F#7, .wr8 0x60#7 0#8, .rd8 0x00#7,
      .otherWidth 16 0x40#7].all (fun x => !admits x) = true := by decide

/-- One register at each end of the map, and a PK byte, read. -/
theorem witness_ReadsAnswerAndChangeNothing :
    (before (.rd32 Reg.ctrl.addr)).pending = .access (.rd32 Reg.ctrl.addr) :: [.reset] ∧
    (before (.rd32 Reg.chanOk.addr)).pending = .access (.rd32 Reg.chanOk.addr) :: [.reset] := ⟨rfl, rfl⟩

/-- The same read twice, of a register and of a byte. -/
theorem witness_ReadsAnswerAndChangeNothing_twice : ∀ x ∈ [HostAccess.rd32 0x04#7, HostAccess.rd8 0x5F#7],
    (∃ a, x = .rd32 a ∨ x = .rd8 a) ∧
    ({ State.reset with pending := [.access x, .access x, .reset] } : State).pending
      = .access x :: .access x :: [.reset] := by
  intro x hx
  simp only [List.mem_cons, List.not_mem_nil, or_false] at hx
  rcases hx with rfl | rfl
  · exact ⟨⟨_, .inl rfl⟩, rfl⟩
  · exact ⟨⟨_, .inr rfl⟩, rfl⟩

/-- PKLEN written at, and above, its largest legal value. -/
theorem witness_RegisterWritesItsFields : Reg.pklen ≠ .cmd ∧
    (before (.wr32 Reg.pklen.addr 32#32)).pending = .access (.wr32 Reg.pklen.addr 32#32) :: [.reset] ∧
    (before (.wr32 Reg.pklen.addr 33#32)).pending = .access (.wr32 Reg.pklen.addr 33#32) :: [.reset] :=
  ⟨by decide, rfl, rfl⟩

theorem witness_WrittenRegisterReadsBackMasked : Reg.hdr ≠ .cmd ∧ Reg.hdr ≠ .status ∧ Reg.hdr ≠ .pklen ∧
    ({ State.reset with pending := [.access (.wr32 Reg.hdr.addr 0xFFFFFFFF#32), .access (.rd32 Reg.hdr.addr)] } :
      State).pending = .access (.wr32 Reg.hdr.addr 0xFFFFFFFF#32) :: .access (.rd32 Reg.hdr.addr) :: [] := by decide

/-- The first and the last word of PK. -/
theorem witness_PkWordAccessIsLittleEndian : State.reset.Inv ∧ 0 < 8 ∧ 7 < 8 ∧
    (before (.rd32 0x5C#7)).pending = .access (.rd32 (BitVec.ofNat 7 (0x40 + 4 * 7))) :: [.reset] ∧
    (before (.wr32 0x40#7 5#32)).pending = .access (.wr32 (BitVec.ofNat 7 (0x40 + 4 * 0)) 5#32) :: [.reset] := by decide

/-- The first and the last byte of PK. -/
theorem witness_PkByteAccess : State.reset.Inv ∧ 0 < 32 ∧ 31 < 32 ∧
    (before (.rd8 0x40#7)).pending = .access (.rd8 (BitVec.ofNat 7 (0x40 + 0))) :: [.reset] ∧
    (before (.wr8 0x5F#7 5#8)).pending = .access (.wr8 (BitVec.ofNat 7 (0x40 + 31)) 5#8) :: [.reset] := by decide

theorem witness_ResetGivesTheTable : { packet with pending := [.reset] }.pending = .reset :: [] := by decide

theorem witness_StepKeepsInvariant : (before (.wr32 0x04#7 0x00000009#32)).Inv ∧
    runs (step (before (.wr32 0x04#7 0x00000009#32))) = true ∧ State.reset.Inv ∧ runs (step State.reset) = true := by
  decide

/-- PLDENC and then a write of LEN, with a reset behind them. -/
def twoEvents : List HostEvent := [.access (.wr32 0x04#7 0x00000007#32), .access (.wr32 0x2C#7 2#32)]

/-- A step, a group of two events, and no event at all, each with more pending behind. -/
theorem witness_EventsTakeEffectInOrder :
    ({ State.reset with pending := twoEvents ++ [.reset] } : State).pending
      = .access (.wr32 0x04#7 0x00000007#32) :: [.access (.wr32 0x2C#7 2#32), .reset] ∧
    runs (step { State.reset with pending := twoEvents ++ [.reset] }) = true ∧
    ({ State.reset with pending := twoEvents ++ [.reset] } : State).pending = twoEvents ++ [.reset] ∧
    runs (core.run 2 { State.reset with pending := twoEvents ++ [.reset] }) = true ∧
    ({ State.reset with pending := [.reset] } : State).pending = [] ++ [.reset] ∧
    runs (core.run 0 { State.reset with pending := [.reset] }) = true := ⟨rfl, rfl, rfl, rfl, rfl, rfl⟩

/-- R60, of those two events: LEN is what the later one wrote, whichever is the later. -/
theorem test_events_in_order : view State.len (applyInOrder twoEvents State.reset) = some 2#6 ∧
    view State.len (applyInOrder twoEvents.reverse State.reset) = some 14#6 := by decide

theorem witness_AssembledCommandRuns : (Instr.f32dec 31).wf = true ∧ (Instr.f32dec 32).wf = false ∧
    { State.reset with pending := ((Statement.command (.f32dec 31)).assemble.getD []) }.pending
      = [.access (.wr32 0x04#7 0x00001F04#32)] ++ [] := by decide

/-- The largest header, and one past it in each operand. -/
theorem witness_SethdrConstructsHeader : (15 < 16 ∧ 3 < 4) ∧ ¬ (16 < 16 ∧ 3 < 4) ∧ ¬ (15 < 16 ∧ 4 < 4) ∧
    { State.reset with pending := (Statement.setHdr 15 3).assemble.getD [] }.pending
      = [.access (.wr32 0x0C#7 0x0000013F#32)] ++ [] := by decide

/-- No byte, as many as PK holds, and one too many. -/
theorem witness_LoadpkLoadsBuffer : State.reset.Inv ∧ ([] : List Byte).length ≤ 32 ∧ (List.replicate 32 0#8).length ≤ 32 ∧
    32 < (List.replicate 33 0#8).length ∧
    { State.reset with pending := (Statement.loadPk [0xAB]).assemble.getD [] }.pending
      = [.access (.wr8 0x40#7 0xAB#8), .access (.wr32 0x2C#7 1#32)] ++ [] := by decide

end Sys2Proof.Tests
end

/-! PROOFS. The host port (20_memory.md R52 to R58): which accesses are refused, what a read answers, and the words and
bytes of PK. -/

namespace Sys2Proof.Machine

/-! ### Which accesses are admitted (R52), in the terms of the address map -/

theorem admits_rd32_iff (a : Addr) : admits (.rd32 a) = true ↔ aligned a = true ∧ target a ≠ .unmapped := by
  rw [aligned_iff]
  rcases target_cases a with ⟨r, ht, h⟩ | ⟨ht, h⟩ | ⟨ht, h, h'⟩
  · simp [admits, ht, h]
  · simp [admits, ht, h]
  · simp [admits, ht, h', show ¬ a.toNat < 0x38 by omega]

theorem admits_wr32_iff (a : Addr) (w : Word) :
    admits (.wr32 a w) = true ↔ aligned a = true ∧ target a ≠ .unmapped :=
  admits_rd32_iff a

theorem admits_rd8_iff (a : Addr) : admits (.rd8 a) = true ↔ ∃ i, target a = .pk i := by
  rcases target_cases a with ⟨r, ht, h⟩ | ⟨ht, h⟩ | ⟨ht, h, h'⟩
  · simp [admits, ht]; omega
  · simp [admits, ht, h]
  · simp [admits, ht, h']

theorem admits_wr8_iff (a : Addr) (b : Byte) : admits (.wr8 a b) = true ↔ ∃ i, target a = .pk i :=
  admits_rd8_iff a

/-! ### What stands at the address says what the access does -/

theorem rd32_of_reg {a : Addr} {r : Reg} (ha : aligned a = true) (ht : target a = .reg r) (s : State) :
    rd32 a s = .next { s with response := some (.word (readReg r s)) } := by
  rw [rd32, if_pos ha, ht]; rfl

theorem rd32_of_pk {a : Addr} {i : Nat} (ha : aligned a = true) (ht : target a = .pk i) (s : State) :
    rd32 a s = .next { s with response := some (.word (pkWord i s)) } := by
  rw [rd32, if_pos ha, ht]; rfl

theorem wr32_of_pk {a : Addr} {i : Nat} (ha : aligned a = true) (ht : target a = .pk i) (w : Word) (s : State) :
    wr32 a w s = .next { writePk i (bytesOf 4 w .le) s with response := some .done } := by
  rw [wr32, if_pos ha, ht]; rfl

theorem rd8_of_pk {a : Addr} {i : Nat} (ht : target a = .pk i) (s : State) :
    rd8 a s = .next { s with response := some (.byte (s.pkByte i)) } := by
  rw [rd8, ht]; rfl

theorem wr8_of_pk {a : Addr} {i : Nat} (ht : target a = .pk i) (b : Byte) (s : State) :
    wr8 a b s = .next { writePk i [b] s with response := some .done } := by
  rw [wr8, ht]; rfl

/-! ### The answer to an access -/

/-- If the outcome is a next state, the answer to the host stands there as it stood in `s`. -/
def KeepsResponse (s : State) (o : Host.Outcome State Fault Refusal) : Prop :=
  ∀ t, o = .next t → t.response = s.response

theorem keepsResponse_next {s t : State} (h : t.response = s.response) : KeepsResponse s (.next t) := by
  rintro _ ⟨⟩
  exact h

theorem keepsResponse_fault (s : State) (r : Fault) : KeepsResponse s (.fault r) := nofun

theorem complete_keepsResponse {s t : State} (h : t.response = s.response) : KeepsResponse s (complete t) :=
  keepsResponse_next h

theorem raise_keepsResponse (e : CmdError) (c : Category) (s : State) : KeepsResponse s (raise e c s) :=
  keepsResponse_next rfl

theorem encodeField_keepsResponse {w : Nat} (n : Nat) (c : Category) (off : Nat) (v : BitVec w) (s : State) :
    KeepsResponse s (encodeField n c off v s) := by
  rw [encodeField_eq]
  split_ifs
  · exact raise_keepsResponse _ _ s
  · exact complete_keepsResponse rfl
  · exact keepsResponse_fault s _

theorem decodeField_keepsResponse (n : Nat) (c : Category) (off : Nat) (s : State) :
    KeepsResponse s (decodeField n c off s) := by
  rw [decodeField_eq]
  split_ifs
  · exact raise_keepsResponse _ _ s
  · exact complete_keepsResponse rfl
  · exact keepsResponse_fault s _

theorem decodeRemainder_keepsResponse (p : BitVec 4) (c : BitVec 2) (s : State) :
    KeepsResponse s (decodeRemainder p c s) := by
  rcases decodeRemainder_cases p c s with ⟨_, h⟩ | ⟨_, _, _, h⟩ | ⟨_, _, h⟩ <;> rw [h] <;>
    exact keepsResponse_next rfl

/-- No command's meaning writes the answer to the host (log entry 3). -/
theorem exec_keepsResponse (i : Instr) (s : State) : KeepsResponse s (exec i s) := by
  cases i with
  | nop => exact complete_keepsResponse rfl
  | henc => exact complete_keepsResponse rfl
  | hdec => rcases execHdec_cases s with ⟨_, h⟩ | ⟨_, h⟩ <;> rw [exec, h] <;> exact keepsResponse_next rfl
  | f32enc off => exact encodeField_keepsResponse _ _ off _ s
  | f32dec off => exact decodeField_keepsResponse _ _ off s
  | u16enc off => exact encodeField_keepsResponse _ _ off _ s
  | u16dec off => exact decodeField_keepsResponse _ _ off s
  | pldenc => rw [exec, execPldenc_next]; exact keepsResponse_next (by simp)
  | plddec => rcases execPlddec_cases s with ⟨_, h⟩ | ⟨_, h⟩ <;> rw [exec, h] <;> exact keepsResponse_next rfl
  | pktenc => rw [exec, execPktenc_next]; exact keepsResponse_next (by simp)
  | pktdec =>
    rcases execPktdec_cases s with ⟨_, h⟩ | ⟨_, _, h⟩ | ⟨_, _, h⟩ <;> rw [exec, h]
    · exact keepsResponse_next rfl
    · exact keepsResponse_next rfl
    · exact decodeRemainder_keepsResponse _ _ s

theorem runCommand_keepsResponse (w : Word) (s : State) : KeepsResponse s (runCommand w s) := by
  unfold runCommand
  split
  · exact exec_keepsResponse _ s
  · exact raise_keepsResponse _ _ s

/-- An admitted WR32 is answered `done`, whatever the command of a CMD write does (R150). -/
theorem wr32_response {a : Addr} {w : Word} {s t : State} (ha : aligned a = true) (ht : target a ≠ .unmapped)
    (h : wr32 a w s = .next t) : t.response = some .done := by
  rw [wr32, if_pos ha] at h
  split at h
  · exact runCommand_keepsResponse w (s.setResponse .done) t h
  · cases h; rfl
  · cases h; rfl
  · contradiction

/-- R53: an access that R52's table does not admit is answered BusError, with nothing else changed. -/
theorem hostAccess_of_not_admits {x : HostAccess} (s : State) (h : admits x = false) :
    hostAccess x s = .next { s with response := some .busError } := by
  rw [← busError_eq]
  cases x with
  | rd32 a =>
    have hn := mt (admits_rd32_iff a).2 (by simp [h])
    by_cases ha : aligned a = true
    · have ht : target a = .unmapped := by simpa [ha] using hn
      rw [hostAccess, rd32, if_pos ha, ht]
    · rw [hostAccess, rd32, if_neg ha]
  | wr32 a w =>
    have hn := mt (admits_wr32_iff a w).2 (by simp [h])
    by_cases ha : aligned a = true
    · have ht : target a = .unmapped := by simpa [ha] using hn
      rw [hostAccess, wr32, if_pos ha, ht]
    · rw [hostAccess, wr32, if_neg ha]
  | rd8 a =>
    have hn := mt (admits_rd8_iff a).2 (by simp [h])
    rw [hostAccess, rd8]
    split
    · rfl
    · exact absurd ⟨_, ‹_›⟩ hn
    · rfl
  | wr8 a b =>
    have hn := mt (admits_wr8_iff a b).2 (by simp [h])
    rw [hostAccess, wr8]
    split
    · rfl
    · exact absurd ⟨_, ‹_›⟩ hn
    · rfl
  | otherWidth n a => rfl

/-- An access that R52's table admits is answered with data or `done`. -/
theorem hostAccess_of_admits {x : HostAccess} {s t : State} (h : admits x = true) (hx : hostAccess x s = .next t) :
    t.response ≠ some .busError := by
  cases x with
  | rd32 a =>
    obtain ⟨ha, ht⟩ := (admits_rd32_iff a).1 h
    cases hr : target a with
    | reg r => rw [hostAccess, rd32_of_reg ha hr] at hx; cases hx; exact nofun
    | pk i => rw [hostAccess, rd32_of_pk ha hr] at hx; cases hx; exact nofun
    | unmapped => contradiction
  | wr32 a w =>
    obtain ⟨ha, ht⟩ := (admits_wr32_iff a w).1 h
    rw [wr32_response ha ht hx]
    exact nofun
  | rd8 a =>
    obtain ⟨i, hi⟩ := (admits_rd8_iff a).1 h
    rw [hostAccess, rd8_of_pk hi] at hx; cases hx; exact nofun
  | wr8 a b =>
    obtain ⟨i, hi⟩ := (admits_wr8_iff a b).1 h
    rw [hostAccess, wr8_of_pk hi] at hx; cases hx; exact nofun
  | otherWidth n a => cases h

/-- Settles O43: `admits` is tied to the four access functions through the address map. -/
theorem busErrorExactlyWhenNotAdmitted : Obligations.BusErrorExactlyWhenNotAdmitted := by
  intro s x rest hp
  rw [step_cons hp, hostEvent]
  exact ⟨fun h => hostAccess_of_not_admits _ h, fun h t ht => hostAccess_of_admits h ht⟩

/-! ### Reads (R54) -/

/-- The value of two fields side by side, as a number. -/
theorem append_toNat {m n : Nat} (x : BitVec m) (y : BitVec n) : (x ++ y).toNat = y.toNat + 2 ^ n * x.toNat := by
  rw [BitVec.toNat_append, Nat.shiftLeft_eq, mul_comm, ← Nat.two_pow_add_eq_or_of_lt y.isLt, add_comm]

theorem readReg_ctrl_toNat (s : State) :
    (readReg .ctrl s).toNat = s.endian.toNat + 2 * s.hchk.toNat + 4 * s.kind.toNat := by
  rw [readReg, BitVec.toNat_setWidth_of_le (by decide), append_toNat, append_toNat]; omega

theorem readReg_status_toNat (s : State) : (readReg .status s).toNat = s.err.toNat + 16 * s.cat.toNat := by
  rw [readReg, BitVec.toNat_setWidth_of_le (by decide), append_toNat, append_toNat, BitVec.toNat_zero]; omega

theorem readReg_hdr_toNat (s : State) :
    (readReg .hdr s).toNat = s.port.toNat + 16 * s.chan.toNat + 256 * s.hv.toNat := by
  rw [readReg, BitVec.toNat_setWidth_of_le (by decide), append_toNat, append_toNat, append_toNat, BitVec.toNat_zero]; omega

/-- A register's value is independent of the two sides of the host port. -/
theorem readReg_port (r : Reg) (p : List HostEvent) (q : Option Response) (s : State) :
    readReg r { s with pending := p, response := q } = readReg r s := by cases r <;> rfl

/-- R54: a read has one answer, whatever is pending and whatever was answered before, and it changes nothing else. -/
theorem read_answers {x : HostAccess} (hx : ∃ a, x = .rd32 a ∨ x = .rd8 a) (s : State) :
    ∃ v : Response, ∀ p q, hostAccess x { s with pending := p, response := q }
      = .next { s with pending := p, response := some v } := by
  by_cases h : admits x = true
  · obtain ⟨a, rfl | rfl⟩ := hx
    · obtain ⟨ha, ht⟩ := (admits_rd32_iff a).1 h
      cases hr : target a with
      | reg r => exact ⟨.word (readReg r s), fun p q => by rw [hostAccess, rd32_of_reg ha hr, readReg_port]⟩
      | pk i => exact ⟨.word (pkWord i s), fun _ _ => rd32_of_pk ha hr _⟩
      | unmapped => contradiction
    · obtain ⟨i, hi⟩ := (admits_rd8_iff a).1 h
      exact ⟨.byte (s.pkByte i), fun _ _ => rd8_of_pk hi _⟩
  · exact ⟨.busError, fun _ _ => hostAccess_of_not_admits _ (by simpa using h)⟩

/-- Settles O44, register by register, and for the repeated read from the one answer of `read_answers`. -/
theorem readsAnswerAndChangeNothing : Obligations.ReadsAnswerAndChangeNothing := by
  constructor
  · intro s r rest hp
    refine ⟨readReg r s, ?_, ?_⟩
    · rw [step_cons hp, hostEvent, hostAccess, rd32_of_reg (aligned_addr r) (target_addr r), readReg_port]
    · cases r with
      | ctrl => exact readReg_ctrl_toNat s
      | status => exact readReg_status_toNat s
      | hdr => exact readReg_hdr_toNat s
      | cmd | fv | roll | pitch | yaw => rfl
      | hb | thrust | payv | pklen | portOk | chanOk => exact BitVec.toNat_setWidth_of_le (by decide)
  · intro s x rest hx hp
    obtain ⟨v, hv⟩ := read_answers hx s
    refine ⟨v, ?_, ?_⟩
    · exact (step_cons hp).trans (hv _ _)
    · exact (step_cons (e := .access x) (rest := rest) rfl).trans (hv rest (some v))

/-! ### Words and bytes of PK (R56 to R58) -/

theorem toNat_pkAddr {i : Nat} (h : i < 32) : (BitVec.ofNat 7 (0x40 + i)).toNat = 0x40 + i := by
  rw [BitVec.toNat_ofNat]; omega

/-- `PK[i]` stands at host address 0x40 + i (R41, R51). -/
theorem target_pkAddr {i : Nat} (h : i < 32) : target (BitVec.ofNat 7 (0x40 + i)) = .pk i := by
  rw [target, toNat_pkAddr h, if_pos (by simp; omega)]; simp

theorem aligned_pkAddr {k : Nat} (h : k < 8) : aligned (BitVec.ofNat 7 (0x40 + 4 * k)) = true := by
  rw [aligned_iff, toNat_pkAddr (by omega)]; omega

/-- R56: a word of PK as a number, whatever ENDIAN is. -/
theorem pkWord_toNat (i : Nat) (s : State) : (pkWord i s).toNat
    = s.pkNat i + 256 * s.pkNat (i + 1) + 65536 * s.pkNat (i + 2) + 16777216 * s.pkNat (i + 3) :=
  append_four_toNat ..

/-- Byte `k` of a number, least significant first (R12). -/
theorem byteAt_le_toNat {w : Nat} (n : Nat) (v : BitVec w) (k : Nat) :
    (byteAt n v .le k).toNat = v.toNat / 256 ^ k % 256 := by
  rw [byteAt, BitVec.extractLsb'_toNat, Nat.shiftRight_eq_div_pow, pow_mul]; rfl

/-- What a host write to PK stores reads back, and every other byte reads as before. -/
theorem writePk_pkByte {i : Nat} {bs : List Byte} {s : State} (h : i + bs.length ≤ 32) (hw : s.pk.wf = true) :
    (∀ (k : Nat) (hk : k < bs.length), (writePk i bs s).pkByte (i + k) = bs[k]) ∧
    (∀ j, j < i ∨ i + bs.length ≤ j → (writePk i bs s).pkByte j = s.pkByte j) :=
  memWrite_pkByte ((memWrite_eq_some i bs s _).2 ⟨h, rfl⟩) hw

/-- Settles O47: the address map puts the word at `PK[4 * i]`; its value is `pkWord_toNat`, and what WR32 stores there is
`writePk_pkByte`. -/
theorem pkWordAccessIsLittleEndian : Obligations.PkWordAccessIsLittleEndian := by
  intro s i rest hinv hi
  have ha := aligned_pkAddr hi
  have ht := target_pkAddr (i := 4 * i) (by omega)
  refine ⟨fun hp => ⟨pkWord (4 * i) s, (step_cons hp).trans (rd32_of_pk ha ht _), pkWord_toNat (4 * i) s⟩,
    fun w hp => ?_⟩
  obtain ⟨hwf, _, _⟩ := hinv
  obtain ⟨inside, outside⟩ := writePk_pkByte (i := 4 * i) (bs := bytesOf 4 w .le)
    (s := { s with pending := rest }) (by simp; omega) hwf
  refine ⟨_, (step_cons hp).trans (wr32_of_pk ha ht w _), rfl, fun j hj => ?_, fun j hj => ?_⟩
  · have hb := inside j (by simpa using hj)
    rw [bytesOf_getElem] at hb
    exact (congrArg BitVec.toNat hb).trans (byteAt_le_toNat 4 w j)
  · exact outside j (by simpa using hj)

/-- Settles O48, from what `writePk` stores of a list of one byte. -/
theorem pkByteAccess : Obligations.PkByteAccess := by
  intro s i b rest hinv hi
  refine ⟨fun hp => (step_cons hp).trans (rd8_of_pk (target_pkAddr hi) _), fun hp => ?_⟩
  obtain ⟨hwf, _, _⟩ := hinv
  obtain ⟨inside, outside⟩ := writePk_pkByte (i := i) (bs := [b]) (s := { s with pending := rest })
    (by simp; omega) hwf
  exact ⟨_, (step_cons hp).trans (wr8_of_pk (target_pkAddr hi) b _), rfl, inside 0 (by simp),
    fun j hj => outside j (by simp; omega)⟩

end Sys2Proof.Machine

/-! PROOFS. The encoding (30_encoding.md R70 to R76): the fields of a command word as numbers, the words of each command,
which words are legal, and what a CMD write of an illegal one does. -/

namespace Sys2Proof

/-! ### The fields of a word (R70 to R72) -/

theorem opField_toNat (w : Word) : (opField w).toNat = w.toNat % 16 := by
  rw [opField, BitVec.extractLsb'_toNat, Nat.shiftRight_zero]

theorem offField_eq (w : Word) : offField w = w.toNat / 256 % 32 := by
  rw [offField, BitVec.extractLsb'_toNat, Nat.shiftRight_eq_div_pow]

theorem reservedClear_iff (w : Word) :
    reservedClear w = true ↔ w.toNat / 2 ^ 13 = 0 ∧ w.toNat / 16 % 16 = 0 := by
  rw [reservedClear, Bool.and_eq_true, beq_iff_eq, beq_iff_eq, ← BitVec.toNat_inj, ← BitVec.toNat_inj,
    BitVec.extractLsb'_toNat, BitVec.extractLsb'_toNat, Nat.shiftRight_eq_div_pow, Nat.shiftRight_eq_div_pow]
  simp only [BitVec.ofNat_eq_ofNat, BitVec.toNat_zero]
  omega

/-! ### The word of a command (R75) -/

theorem Instr.op_lt (i : Instr) : i.op < 16 := by cases i <;> simp [Instr.op]

theorem noOff_eq_ok_iff (i j : Instr) (off : Nat) : noOff i off = .ok j ↔ off = 0 ∧ i = j := by
  rw [noOff]; split_ifs <;> simp [*]

/-- R75, inverted: OP and OFF say which command it is. -/
theorem decodeOp_eq_ok_iff (op : BitVec 4) (off : Nat) (i : Instr) :
    decodeOp op off = .ok i ↔ op.toNat = i.op ∧ off = i.off := by
  constructor
  · intro h
    unfold decodeOp at h
    split at h
    case h_4 hop | h_5 hop | h_6 hop | h_7 hop => cases h; exact ⟨hop, rfl⟩
    case h_12 => cases h
    all_goals
      obtain ⟨rfl, rfl⟩ := (noOff_eq_ok_iff _ _ _).1 h
      exact ⟨‹_›, rfl⟩
  · rintro ⟨hop, rfl⟩
    unfold decodeOp
    rw [hop]
    cases i <;> rfl

theorem decode_eq_ok_iff_fields (w : Word) (i : Instr) :
    decode w = .ok i ↔ reservedClear w = true ∧ decodeOp (opField w) (offField w) = .ok i := by
  rw [decode]; split_ifs <;> simp [*]

/-- The one word of a command: OFF above OP, for an offset that fits (R75, R77). -/
theorem decode_eq_ok_iff (w : Word) (i : Instr) :
    decode w = .ok i ↔ w.toNat = 256 * i.off + i.op ∧ i.off < 32 := by
  have hop := i.op_lt
  rw [decode_eq_ok_iff_fields, reservedClear_iff, decodeOp_eq_ok_iff, opField_toNat, offField_eq]
  omega

/-! ### The opcode map (R74) -/

/-- The map is indexed by OP. -/
theorem opcodeMap_getElem?_op (i : Instr) : opcodeMap[i.op]? = some i.row := by cases i <;> rfl

theorem mem_opcodeMap_iff (r : OpRow) : r ∈ opcodeMap ↔ ∃ i : Instr, i.row = r := by
  constructor
  · simp only [opcodeMap, List.mem_cons, List.not_mem_nil, or_false]
    rintro (rfl | rfl | rfl | rfl | rfl | rfl | rfl | rfl | rfl | rfl | rfl) <;> exact ⟨_, rfl⟩
  · rintro ⟨i, rfl⟩
    exact List.mem_of_getElem? (opcodeMap_getElem?_op i)

/-- The mask of a command without an offset covers the whole word. -/
theorem matches_fullMask (m : String) (p w : Word) : (OpRow.mk m p 0xFFFFFFFF#32).matches w = true ↔ w = p := by
  rw [OpRow.matches, beq_iff_eq, show 0xFFFFFFFF#32 = BitVec.allOnes 32 from rfl, BitVec.and_allOnes]

/-- A word, cut around its OFF field. -/
theorem word_eq_append (w : Word) : w.extractLsb' 13 19 ++ w.extractLsb' 8 5 ++ w.extractLsb' 0 8 = w := by
  rw [BitVec.extractLsb'_append_extractLsb'_eq_extractLsb' (start₁ := 8) (len₁ := 5) (start₂ := 13) rfl,
    BitVec.extractLsb'_append_extractLsb'_eq_extractLsb' (start₁ := 0) (len₁ := 8) (start₂ := 8) rfl,
    BitVec.extractLsb'_eq_self]

/-- The mask of a command with an offset clears OFF. -/
theorem and_offMask (w : Word) : w &&& 0xFFFFE0FF#32 = w.extractLsb' 13 19 ++ 0#5 ++ w.extractLsb' 0 8 :=
  calc w &&& 0xFFFFE0FF#32
    _ = (w.extractLsb' 13 19 ++ w.extractLsb' 8 5 ++ w.extractLsb' 0 8) &&&
          (BitVec.allOnes 19 ++ 0#5 ++ BitVec.allOnes 8) := by rw [word_eq_append]; rfl
    _ = w.extractLsb' 13 19 ++ 0#5 ++ w.extractLsb' 0 8 := by
      rw [BitVec.and_append, BitVec.and_append, BitVec.and_allOnes, BitVec.and_allOnes, BitVec.and_zero]

theorem matches_offMask (m : String) (p w : Word) :
    (OpRow.mk m p 0xFFFFE0FF#32).matches w = true ↔ w.toNat = 256 * (w.toNat / 256 % 32) + p.toNat := by
  rw [OpRow.matches, beq_iff_eq, ← BitVec.toNat_inj, and_offMask, Machine.append_toNat, Machine.append_toNat,
    BitVec.extractLsb'_toNat, BitVec.extractLsb'_toNat, Nat.shiftRight_eq_div_pow, Nat.shiftRight_eq_div_pow,
    BitVec.toNat_zero]
  dsimp only
  omega

/-- The word of a command is in the command's row. -/
theorem row_matches_of_decode {w : Word} {i : Instr} (h : decode w = .ok i) : i.row.matches w = true := by
  obtain ⟨hw, hoff⟩ := (decode_eq_ok_iff w i).1 h
  cases i with
  | f32enc off | f32dec off | u16enc off | u16dec off =>
    simp only [Instr.off, Instr.op] at hw hoff
    exact (matches_offMask _ _ w).2 (by simp only [BitVec.toNat_ofNat]; omega)
  | nop | henc | hdec | pldenc | plddec | pktenc | pktdec =>
    exact (matches_fullMask _ _ w).2 (BitVec.eq_of_toNat_eq hw)

/-- A word of a row with an offset decodes to the command whose offset stands in the word. -/
theorem decode_of_matches_offMask {w : Word} {m : String} {p : Word} (i : Instr)
    (h : (OpRow.mk m p 0xFFFFE0FF#32).matches w = true) (hoff : i.off = w.toNat / 256 % 32)
    (hop : i.op = p.toNat) : decode w = .ok i :=
  (decode_eq_ok_iff w i).2 ⟨by rw [hoff, hop]; exact (matches_offMask m p w).1 h, by omega⟩

theorem decode_of_row_matches {w : Word} {i : Instr} (h : i.row.matches w = true) :
    ∃ j, decode w = .ok j ∧ j.row = i.row := by
  cases i with
  | f32enc => exact ⟨.f32enc (w.toNat / 256 % 32), decode_of_matches_offMask _ h rfl rfl, rfl⟩
  | f32dec => exact ⟨.f32dec (w.toNat / 256 % 32), decode_of_matches_offMask _ h rfl rfl, rfl⟩
  | u16enc => exact ⟨.u16enc (w.toNat / 256 % 32), decode_of_matches_offMask _ h rfl rfl, rfl⟩
  | u16dec => exact ⟨.u16dec (w.toNat / 256 % 32), decode_of_matches_offMask _ h rfl rfl, rfl⟩
  | nop | henc | hdec | pldenc | plddec | pktenc | pktdec =>
    obtain rfl := (matches_fullMask _ _ w).1 h
    exact ⟨_, rfl, rfl⟩

/-- A word is a row's exactly when it decodes to a command of the row. -/
theorem matches_iff_decode {r : OpRow} (hr : r ∈ opcodeMap) (w : Word) :
    r.matches w = true ↔ ∃ i, decode w = .ok i ∧ i.row = r := by
  obtain ⟨i, rfl⟩ := (mem_opcodeMap_iff r).1 hr
  constructor
  · exact decode_of_row_matches
  · rintro ⟨j, hj, hrow⟩
    exact hrow ▸ row_matches_of_decode hj

/-- Settles O2, from `matches_iff_decode`: the rows of the map are the rows of the commands, and a word decodes to one
command only. -/
theorem legalWordsAreTheRows : Obligations.LegalWordsAreTheRows := by
  intro w
  refine ⟨⟨?_, ?_⟩, fun i hi r hr => ?_⟩
  · rintro ⟨i, hi⟩
    exact ⟨i.row, (mem_opcodeMap_iff _).2 ⟨i, rfl⟩, row_matches_of_decode hi⟩
  · rintro ⟨r, hr, hw⟩
    obtain ⟨i, hi, -⟩ := (matches_iff_decode hr w).1 hw
    exact ⟨i, hi⟩
  · rw [matches_iff_decode hr, hi]
    constructor
    · rintro ⟨_, ⟨⟩, rfl⟩
      rfl
    · rintro rfl
      exact ⟨i, rfl, rfl⟩

/-! ### The illegal words (R76, R154) -/

/-- R75, by the value of OP: which OP and OFF select a command. -/
theorem exists_decodeOp_iff (op : BitVec 4) (off : Nat) :
    (∃ i, decodeOp op off = .ok i) ↔
      op.toNat < 0xB ∧ (op.toNat ∈ [0x0, 0x1, 0x2, 0x7, 0x8, 0x9, 0xA] → off = 0) := by
  unfold decodeOp
  split
  case h_12 =>
    simp only [imp_false] at *
    exact iff_of_false nofun fun ⟨hop, _⟩ => by omega
  all_goals simp [noOff_eq_ok_iff, *]

/-- The words that select no command, as R76 lists them. -/
theorem not_exists_decode_iff (w : Word) : (¬ ∃ i, decode w = .ok i) ↔
    0xB ≤ w.toNat % 16 ∨ w.toNat / 2 ^ 13 ≠ 0 ∨ w.toNat / 16 % 16 ≠ 0 ∨
      (w.toNat % 16 ∈ [0x0, 0x1, 0x2, 0x7, 0x8, 0x9, 0xA] ∧ w.toNat / 256 % 32 ≠ 0) := by
  simp only [decode_eq_ok_iff_fields, exists_and_left, reservedClear_iff, exists_decodeOp_iff, opField_toNat,
    offField_eq, ← Nat.not_lt]
  tauto

namespace Machine

/-- A CMD write runs its word, in the state where the write is already answered (log entry 3). -/
theorem step_cmdWrite {s : State} {w : Word} {rest : List HostEvent}
    (h : s.pending = .access (.wr32 Config.cmdAddr w) :: rest) :
    step s = runCommand w { s with pending := rest, response := some .done } := by
  rw [step_cons h, hostEvent, hostAccess, wr32_cmd]; rfl

theorem runCommand_of_illegal {w : Word} (h : ¬ ∃ i, decode w = .ok i) (s : State) :
    runCommand w s = raise .illegalCommand .command s := by
  unfold runCommand
  split
  · exact absurd ⟨_, ‹_›⟩ h
  · rfl

/-- Settles O3: the list is `not_exists_decode_iff`, and an illegal word only raises (R154). -/
theorem illegalWordsRaise : Obligations.IllegalWordsRaise := by
  intro w
  refine ⟨not_exists_decode_iff w, fun hw s rest hp => ?_⟩
  exact ⟨_, (step_cmdWrite hp).trans (runCommand_of_illegal hw _), rfl⟩

end Machine

end Sys2Proof

/-! PROOFS. The field codec primitives (40_field_codec.md R100 to R104): the words of the four commands, and what a field
encode and a field decode do within LEN and past it. -/

namespace Sys2Proof

/-- The word of a field command, with OFF in its bits 12 to 8 (R70, R74). -/
theorem decode_eq_ok_iff_ofNat {i : Instr} (hoff : i.off < 32) (w : Word) :
    decode w = .ok i ↔ w = BitVec.ofNat 32 (256 * i.off + i.op) := by
  have hop := i.op_lt
  rw [decode_eq_ok_iff, and_iff_left hoff, ← BitVec.toNat_inj, BitVec.toNat_ofNat,
    Nat.mod_eq_of_lt (by omega)]

namespace Machine

/-! ### A field encode (R101, R103) -/

/-- Past LEN a field encode changes STATUS alone. -/
theorem encodeField_past_len {w n off : Nat} {s : State} (c : Category) (v : BitVec w)
    (h : s.len.toNat < off + n) :
    encodeField n c off v s = .next { s with err := 3#3, cat := c.code } := by
  rw [encodeField_eq, if_pos h]; rfl

/-- Within LEN a field encode puts the wire bytes of the value into PK, and changes nothing else but STATUS. -/
theorem encodeField_within_len {w n off : Nat} {s : State} (c : Category) (v : BitVec w) (hinv : s.Inv)
    (h : off + n ≤ s.len.toNat) :
    ∃ t, encodeField n c off v s = .next t ∧ t = { s with pk := t.pk, err := 0#3, cat := 0#3 } ∧
      (∀ k < n, t.pkNat (off + k) = wireByte s.endian n v.toNat k) ∧
      (∀ j, j < off ∨ off + n ≤ j → t.pkByte j = s.pkByte j) := by
  obtain ⟨hwf, hlen, _⟩ := hinv
  have hmem : memWrite off (bytesOf n v s.byteOrder) s = some (writePk off (bytesOf n v s.byteOrder) s) :=
    (memWrite_eq_some ..).2 ⟨by rw [bytesOf_length]; omega, rfl⟩
  obtain ⟨inside, outside⟩ := memWrite_pkByte hmem hwf
  rw [bytesOf_length] at outside
  refine ⟨(writePk off (bytesOf n v s.byteOrder) s).setStatus 0#3 0#3, ?_, rfl, fun k hk => ?_, outside⟩
  · rw [encodeField, if_neg (by omega), hmem]; rfl
  · have hbyte := inside k (by rwa [bytesOf_length])
    rw [bytesOf_getElem] at hbyte
    exact (congrArg BitVec.toNat hbyte).trans (byteAt_toNat n v s k)

/-! ### A field decode (R102, R104) -/

/-- Past LEN a field decode changes STATUS alone. -/
theorem decodeField_past_len {n off : Nat} {s : State} (c : Category) (h : s.len.toNat < off + n) :
    decodeField n c off s = .next { s with err := 2#3, cat := c.code } := by
  rw [decodeField_eq, if_pos h]; rfl

/-- Within LEN a field decode puts the value of the field's bytes, zero-extended, into FV, and changes nothing else but
STATUS. -/
theorem decodeField_within_len {n off : Nat} {s : State} (c : Category) (hinv : s.Inv) (h : off + n ≤ s.len.toNat) :
    decodeField n c off s = .next { s with
      fv := (valueOf (8 * n) (pkBytes off n s) s.byteOrder).setWidth 32, err := 0#3, cat := 0#3 } := by
  obtain ⟨_, hlen, _⟩ := hinv
  rw [decodeField_eq, if_neg (by omega), if_pos (by omega)]; rfl

/-! ### The four commands -/

/-- Settles O14: F32ENC is the field encode of four bytes of the whole FV. -/
theorem f32encStoresOrRaises : Obligations.F32encStoresOrRaises := fun off s hoff hinv =>
  ⟨decode_eq_ok_iff_ofNat (i := .f32enc off) hoff, encodeField_within_len .float32 s.fv hinv,
    encodeField_past_len .float32 s.fv⟩

/-- Settles O15: F32DEC is the field decode of four bytes, whose value is `valueOf_pkBytes_four`. -/
theorem f32decLoadsOrRaises : Obligations.F32decLoadsOrRaises := fun off s hoff hinv =>
  ⟨decode_eq_ok_iff_ofNat (i := .f32dec off) hoff,
    fun h => ⟨_, decodeField_within_len .float32 hinv h,
      (BitVec.toNat_setWidth_of_le (by decide)).trans (valueOf_pkBytes_four s off)⟩,
    decodeField_past_len .float32⟩

/-- Settles O16: U16ENC is the field encode of two bytes of `FV[15:0]`, which is FV modulo 2^16. -/
theorem u16encStoresOrRaises : Obligations.U16encStoresOrRaises := by
  intro off s hoff hinv
  have hlow : (s.fv.extractLsb' 0 16).toNat = s.fv.toNat % 2 ^ 16 := by
    rw [BitVec.extractLsb'_toNat, Nat.shiftRight_zero]
  refine ⟨decode_eq_ok_iff_ofNat (i := .u16enc off) hoff, fun h => ?_, encodeField_past_len .uint16 _⟩
  rw [← hlow]
  exact encodeField_within_len .uint16 _ hinv h

/-- Settles O17: U16DEC is the field decode of two bytes, whose value is `valueOf_pkBytes_two` and stays the same under
zero extension. -/
theorem u16decLoadsOrRaises : Obligations.U16decLoadsOrRaises := fun off s hoff hinv =>
  ⟨decode_eq_ok_iff_ofNat (i := .u16dec off) hoff,
    fun h => ⟨_, decodeField_within_len .uint16 hinv h,
      (BitVec.toNat_setWidth_of_le (by decide)).trans (valueOf_pkBytes_two s off)⟩,
    decodeField_past_len .uint16⟩

end Machine

end Sys2Proof

/-! PROOFS. The header commands (41_header.md R110 to R115): the Port and the Channel of a header byte by arithmetic, and
HENC and HDEC. -/

namespace Sys2Proof.Machine

/-! ### The fields of a header byte (R110, R112) -/

theorem hdecPort_eq_ofNat (b : Byte) : hdecPort b = BitVec.ofNat 4 (b.toNat / 16) := by
  rw [← hdecPort_toNat, BitVec.ofNat_toNat, BitVec.setWidth_eq]

theorem hdecChan_eq_ofNat (b : Byte) : hdecChan b = BitVec.ofNat 2 (b.toNat % 4) := by
  rw [← hdecChan_toNat, BitVec.ofNat_toNat, BitVec.setWidth_eq]

/-! ### HDEC past the recognized-value check, and stopped by it (R113, R115) -/

theorem execHdec_of_accepted {s : State} (h : s.HeaderAccepted s.hb.toNat) :
    execHdec s = .next { s with
      port := BitVec.ofNat 4 (s.hb.toNat / 16), chan := BitVec.ofNat 2 (s.hb.toNat % 4), hv := 1#1,
      err := 0#3, cat := 0#3 } := by
  rw [execHdec, if_pos ((hcheckPasses_iff s s.hb).2 h), hdecPort_eq_ofNat, hdecChan_eq_ofNat]; rfl

theorem execHdec_of_rejected {s : State} (h : ¬ s.HeaderAccepted s.hb.toNat) :
    execHdec s = .next { s with err := 2#3, cat := 1#3 } := by
  rw [execHdec, if_neg (mt (hcheckPasses_iff s s.hb).1 h)]; rfl

/-! ### The two commands -/

/-- Settles O10: whether HDEC writes HDR or raises is `hcheckPasses_iff`, and what it writes are the fields of HB by
arithmetic. -/
theorem hdecUnpacksOrRaises : Obligations.HdecUnpacksOrRaises :=
  ⟨decode_eq_ok_iff_ofNat (i := .hdec) (by decide), fun _ => ⟨execHdec_of_accepted, execHdec_of_rejected⟩⟩

/-- Settles O9: HENC has no branch, and the value of the byte it writes is `hbyte_toNat`. -/
theorem hencPacksHeader : Obligations.HencPacksHeader :=
  ⟨decode_eq_ok_iff_ofNat (i := .henc) (by decide),
    fun s => ⟨hbyte s.port s.chan, rfl, hbyte_toNat s.port s.chan⟩⟩

end Sys2Proof.Machine

/-! PROOFS. The commander payload commands (42_payload.md R120 to R124): what storing a list of bytes as the buffer
leaves, the payload's wire bytes field by field, and PLDENC and PLDDEC. -/

namespace Sys2Proof.Machine

/-! ### The buffer written whole (R123, R131) -/

/-- Storing a buffer puts its bytes at `PK[0 ..]` and their number into LEN, and changes nothing else but STATUS. -/
theorem storeBuffer_stores {out : List Byte} {s : State} (hwf : s.pk.wf = true) (h : out.length ≤ 32) :
    ∃ t, storeBuffer out s = .next t ∧
      t = { s with pk := t.pk, len := BitVec.ofNat 6 out.length, err := 0#3, cat := 0#3 } ∧
      (∀ (k : Nat) (hk : k < out.length), t.pkByte k = out[k]) ∧
      (∀ j, out.length ≤ j → t.pkByte j = s.pkByte j) := by
  obtain ⟨inside, outside⟩ := writePk_pkByte (i := 0) ((Nat.zero_add _).trans_le h) hwf
  simp only [Nat.zero_add] at inside outside
  exact ⟨_, storeBuffer_next out s h, stored_frame .., inside, fun j hj => outside j (.inr hj)⟩

/-! ### The payload on the wire (R120 to R122) -/

/-- A byte of R12's list in the current byte order is the wire byte of R63. -/
theorem bytesOf_getElem_toNat {w : Nat} (n : Nat) (v : BitVec w) (s : State) (k : Nat)
    (h : k < (bytesOf n v s.byteOrder).length) :
    (bytesOf n v s.byteOrder)[k].toNat = wireByte s.endian n v.toNat k := by
  rw [bytesOf_getElem, byteAt_toNat]

/-- R121's 14 bytes are the wire bytes of R120's layout: the field that byte `k` falls into decides. -/
theorem cmdBytes_getElem_toNat (s : State) (k : Nat) (h : k < (s.cmdBytes s.byteOrder).length) :
    (s.cmdBytes s.byteOrder)[k].toNat = s.payloadWireByte k := by
  simp only [State.cmdBytes, State.payloadWireByte, List.getElem_append, List.length_append, bytesOf_length,
    Config.f32Bytes_eq, Config.u16Bytes_eq, Nat.reduceAdd]
  by_cases hyaw : k < 12
  · by_cases hpitch : k < 8
    · by_cases hroll : k < 4 <;> simp [hyaw, hpitch, hroll, bytesOf_getElem_toNat]
    · have hroll : ¬ k < 4 := by omega
      simp [hyaw, hpitch, hroll, bytesOf_getElem_toNat]
  · have hpitch : ¬ k < 8 := by omega
    have hroll : ¬ k < 4 := by omega
    simp [hyaw, hpitch, hroll, bytesOf_getElem_toNat]

/-- A part of the bytes that MemRead returns is what MemRead returns from there. -/
theorem take_drop_pkBytes {a n i m : Nat} (s : State) (h : i + m ≤ n) :
    ((pkBytes a n s).drop i).take m = pkBytes (a + i) m s := by
  apply List.ext_getElem
  · rw [List.length_take, List.length_drop, pkBytes_length, pkBytes_length]; omega
  · intro k _ _
    simp [pkBytes, Nat.add_assoc]

/-- R122 on 14 bytes of PK: each payload register takes the value of its own bytes. -/
theorem setCmdFields_holdsPayloadOf (s : State) (a : Nat) :
    (s.setCmdFields (pkBytes a 14 s) s.byteOrder).HoldsPayloadOf s a := by
  have roll : (pkBytes a 14 s).take 4 = pkBytes a 4 s := take_drop_pkBytes (i := 0) s (by decide)
  have pitch := take_drop_pkBytes (a := a) (n := 14) (i := 4) (m := 4) s (by decide)
  have yaw := take_drop_pkBytes (a := a) (n := 14) (i := 8) (m := 4) s (by decide)
  have thrust := take_drop_pkBytes (a := a) (n := 14) (i := 12) (m := 2) s (by decide)
  unfold State.setCmdFields
  rw [roll, pitch, yaw, thrust]
  exact ⟨valueOf_pkBytes_four s a, valueOf_pkBytes_four s (a + 4), valueOf_pkBytes_four s (a + 8),
    valueOf_pkBytes_two s (a + 12)⟩

/-! ### The two commands -/

/-- Settles O21: PLDENC stores the 14 bytes of R121 as the buffer, and they are the payload's wire bytes by
`cmdBytes_getElem_toNat`. -/
theorem pldencStoresPayload : Obligations.PldencStoresPayload := by
  refine ⟨decode_eq_ok_iff_ofNat (i := .pldenc) (by decide), fun s ⟨hwf, _⟩ => ?_⟩
  have hlen : (s.cmdBytes s.byteOrder).length = 14 := s.cmdBytes_length s.byteOrder
  obtain ⟨t, hexec, hframe, inside, outside⟩ := storeBuffer_stores hwf (hlen.trans_le (by decide))
  rw [hlen] at hframe outside
  exact ⟨t, hexec, hframe, fun k hk => (congrArg BitVec.toNat (inside k (hlen ▸ hk))).trans
    (cmdBytes_getElem_toNat s k _), outside⟩

/-- Settles O22: LEN decides between the two cases of `execPlddec_cases`, and what the first one loads is
`setCmdFields_holdsPayloadOf`. -/
theorem plddecLoadsOrRaises : Obligations.PlddecLoadsOrRaises := by
  refine ⟨decode_eq_ok_iff_ofNat (i := .plddec) (by decide), fun s => ?_⟩
  have hlen : s.len.toNat = 14 ↔ s.len = 14#6 := by rw [← BitVec.toNat_inj]; rfl
  obtain ⟨h14, hexec⟩ | ⟨hne, hexec⟩ := execPlddec_cases s
  · exact ⟨fun _ => ⟨_, hexec, rfl, setCmdFields_holdsPayloadOf s 0⟩, fun hne => absurd (hlen.1 h14) hne⟩
  · exact ⟨fun h14 => absurd (hlen.2 h14) hne, fun _ => hexec⟩

end Sys2Proof.Machine

/-! PROOFS. The packet framing commands (43_packet.md R131 to R133): the header and the payload part of the bytes that
PKTENC stores, the outcomes of PKTDEC by LEN, KIND and the header byte, and the header-only kind. -/

namespace Sys2Proof.Machine

/-! ### The two parts of the packet's bytes (R130, R131) -/

theorem headerBytes_length (s : State) : s.headerBytes.length = if s.hv = 1#1 then 1 else 0 := by
  rw [State.headerBytes]; split_ifs <;> rfl

theorem payloadBytes_length (s : State) :
    s.payloadBytes.length = if s.kind = 0#1 ∧ s.pv = 1#1 then 14 else 0 := by
  rw [State.payloadBytes]; split_ifs
  · exact s.cmdBytes_length s.byteOrder
  · rfl

theorem headerBytes_getElem_toNat (s : State) (k : Nat) (h : k < s.headerBytes.length) :
    s.headerBytes[k].toNat = 16 * s.port.toNat + s.chan.toNat := by
  by_cases hv : s.hv = 1#1
  · simp [State.headerBytes, hv, hbyte_toNat]
  · simp [State.headerBytes, hv] at h

theorem payloadBytes_getElem_toNat (s : State) (k : Nat) (h : k < s.payloadBytes.length) :
    s.payloadBytes[k].toNat = s.payloadWireByte k := by
  by_cases hp : s.kind = 0#1 ∧ s.pv = 1#1
  · simp only [State.payloadBytes, if_pos hp] at h ⊢
    exact cmdBytes_getElem_toNat s k h
  · simp [State.payloadBytes, hp] at h

theorem packetBytes_header_toNat (s : State) (k : Nat) (h : k < s.headerBytes.length) (hk : k < s.packetBytes.length) :
    s.packetBytes[k].toNat = 16 * s.port.toNat + s.chan.toNat :=
  (congrArg BitVec.toNat (List.getElem_append_left h)).trans (headerBytes_getElem_toNat s k h)

theorem packetBytes_payload_toNat (s : State) (k : Nat) (h : k < s.payloadBytes.length)
    (hk : s.headerBytes.length + k < s.packetBytes.length) :
    s.packetBytes[s.headerBytes.length + k].toNat = s.payloadWireByte k := by
  rw [← payloadBytes_getElem_toNat s k h]
  simp [State.packetBytes]

/-! ### PKTENC (R131) -/

/-- Settles O25: PKTENC stores the header part and the payload part as one buffer, so `storeBuffer_stores` gives its
frame, and each byte stored is in one of the two parts. -/
theorem pktencFramesPacket : Obligations.PktencFramesPacket := by
  refine ⟨decode_eq_ok_iff_ofNat (i := .pktenc) (by decide), fun s ⟨hwf, _⟩ => ?_⟩
  have hlen : s.packetBytes.length = s.headerBytes.length + s.payloadBytes.length := List.length_append
  obtain ⟨t, hexec, hframe, inside, outside⟩ :=
    storeBuffer_stores hwf (s.packetBytes_length_le.trans (by decide))
  refine ⟨_, _, t, headerBytes_length s, payloadBytes_length s, hexec, hlen ▸ hframe, fun h => ?_, fun k hk => ?_,
    hlen ▸ outside⟩
  · exact (congrArg BitVec.toNat (inside 0 (by omega))).trans (packetBytes_header_toNat s 0 (by omega) _)
  · exact (congrArg BitVec.toNat (inside _ (by omega))).trans (packetBytes_payload_toNat s k hk _)

/-! ### PKTDEC (R132): the empty packet, and the header check before the remainder

The header byte is a number `b` of its own, so that a caller may give it in any form it knows `PK[0]` in. -/

/-- LEN as a number, and LEN as the statements write it. -/
theorem len_toNat_eq_iff (s : State) {n : Nat} (hn : n < 64) : s.len.toNat = n ↔ s.len = BitVec.ofNat 6 n := by
  rw [← BitVec.toNat_inj, BitVec.toNat_ofNat, Nat.mod_eq_of_lt hn]

theorem execPktdec_of_empty {s : State} (h : s.len = 0#6) :
    execPktdec s = .next { s with hv := 0#1, pv := 0#1, err := 0#3, cat := 0#3 } := by
  rw [execPktdec, if_pos ((len_toNat_eq_iff s (by decide)).2 h)]; rfl

theorem execPktdec_of_rejected {s : State} {b : Nat} (hlen : s.len ≠ 0#6) (hb : s.pkNat 0 = b)
    (h : ¬ s.HeaderAccepted b) : execPktdec s = .next { s with err := 2#3, cat := 1#3 } := by
  subst hb
  rw [execPktdec, if_neg (mt (len_toNat_eq_iff s (by decide)).1 hlen), if_neg (mt (hcheckPasses_iff s _).1 h)]; rfl

/-- With an accepted header, the remainder decides. -/
theorem execPktdec_of_accepted {s : State} {b : Nat} (hlen : s.len ≠ 0#6) (hb : s.pkNat 0 = b)
    (h : s.HeaderAccepted b) :
    execPktdec s = decodeRemainder (BitVec.ofNat 4 (b / 16)) (BitVec.ofNat 2 (b % 4)) s := by
  subst hb
  rw [execPktdec, if_neg (mt (len_toNat_eq_iff s (by decide)).1 hlen), if_pos ((hcheckPasses_iff s _).2 h),
    hdecPort_eq_ofNat, hdecChan_eq_ofNat]; rfl

/-! ### The remainder (R132): no payload, the payload, any other length -/

theorem decodeRemainder_of_no_payload {s : State} (p : BitVec 4) (c : BitVec 2) (h : s.kind = 1#1 ∨ s.len = 1#6) :
    decodeRemainder p c s = .next { s with port := p, chan := c, hv := 1#1, pv := 0#1, err := 0#3, cat := 0#3 } := by
  rw [decodeRemainder, Config.hdrBytes_eq, if_pos (h.imp_right (len_toNat_eq_iff s (by decide)).2)]; rfl

theorem decodeRemainder_of_payload {s : State} (p : BitVec 4) (c : BitVec 2) (hk : s.kind = 0#1) (hlen : s.len = 15#6) :
    ∃ t, decodeRemainder p c s = .next t ∧ t = { s with
        port := p, chan := c, hv := 1#1, roll := t.roll, pitch := t.pitch, yaw := t.yaw, thrust := t.thrust, pv := 1#1,
        err := 0#3, cat := 0#3 } ∧
      t.HoldsPayloadOf s 1 := by
  have h15 : s.len.toNat = 15 := (len_toNat_eq_iff s (by decide)).2 hlen
  obtain ⟨hk1 | h1, _⟩ | ⟨_, _, hne, _⟩ | ⟨_, _, hexec⟩ := decodeRemainder_cases p c s
  · simp [hk] at hk1
  · omega
  · omega
  · exact ⟨_, hexec, rfl, setCmdFields_holdsPayloadOf s 1⟩

theorem decodeRemainder_of_wrong_length {s : State} (p : BitVec 4) (c : BitVec 2) (hk : s.kind = 0#1)
    (h1 : s.len ≠ 1#6) (h15 : s.len ≠ 15#6) :
    decodeRemainder p c s = .next { s with err := 1#3, cat := 2#3 } := by
  obtain ⟨hk1 | hone, _⟩ | ⟨_, _, _, hexec⟩ | ⟨_, hfifteen, _⟩ := decodeRemainder_cases p c s
  · simp [hk] at hk1
  · exact absurd ((len_toNat_eq_iff s (by decide)).1 hone) h1
  · exact hexec
  · exact absurd ((len_toNat_eq_iff s (by decide)).1 hfifteen) h15

/-- Settles O26: LEN and the header byte decide whether PKTDEC gets to the remainder, KIND and LEN what it does
there. -/
theorem pktdecDecodesPacket : Obligations.PktdecDecodesPacket := by
  refine ⟨decode_eq_ok_iff_ofNat (i := .pktdec) (by decide), fun s =>
    ⟨execPktdec_of_empty, fun hlen => execPktdec_of_rejected hlen rfl, fun hlen hacc hnone => ?_,
      fun hk hacc hlen => ?_, fun hk hacc h0 h1 h15 => ?_⟩⟩
  · exact (execPktdec_of_accepted hlen rfl hacc).trans (decodeRemainder_of_no_payload _ _ hnone)
  · have h0 : s.len ≠ 0#6 := by simp [hlen]
    rw [exec, execPktdec_of_accepted h0 rfl hacc]
    exact decodeRemainder_of_payload _ _ hk hlen
  · exact (execPktdec_of_accepted h0 rfl hacc).trans (decodeRemainder_of_wrong_length _ _ hk h1 h15)

/-! ### The header-only kind (R133) -/

/-- An accepted header is the whole packet, whatever LEN is. -/
theorem execPktdec_headerOnly {s : State} {b : Nat} (hk : s.kind = 1#1) (hlen : s.len ≠ 0#6) (hb : s.pkNat 0 = b)
    (h : s.HeaderAccepted b) : execPktdec s = .next { s with
      port := BitVec.ofNat 4 (b / 16), chan := BitVec.ofNat 2 (b % 4), hv := 1#1, pv := 0#1, err := 0#3, cat := 0#3 } :=
  (execPktdec_of_accepted hlen hb h).trans (decodeRemainder_of_no_payload _ _ (.inl hk))

/-- The encoding half of R133: the case of O25 in which there is no payload part. -/
theorem pktenc_headerOnly {s : State} (hinv : s.Inv) (hk : s.kind = 1#1) :
    ∃ t, exec .pktenc s = .next t ∧
      t = { s with pk := t.pk, len := if s.hv = 1#1 then 1#6 else 0#6, err := 0#3, cat := 0#3 } ∧
      (s.hv = 1#1 → t.pkNat 0 = 16 * s.port.toNat + s.chan.toNat) ∧
      (∀ j, s.hv = 0#1 ∨ 1 ≤ j → t.pkByte j = s.pkByte j) := by
  obtain ⟨h, p, t, hh, hp, hexec, hframe, header, -, outside⟩ := pktencFramesPacket.2 s hinv
  obtain rfl : p = 0 := by simpa [hk] using hp
  obtain hv | hv := BitVec.eq_zero_or_eq_one s.hv
  · obtain rfl : h = 0 := by simpa [hv] using hh
    exact ⟨t, hexec, by simpa [hv] using hframe, by simp [hv], fun j _ => outside j j.zero_le⟩
  · obtain rfl : h = 1 := by simpa [hv] using hh
    exact ⟨t, hexec, by simpa [hv] using hframe, fun _ => header rfl, fun j hj => outside j (by simpa [hv] using hj)⟩

/-- The decoding half of R133: the empty packet, the rejected header and the accepted one, none of which reads PK past
`PK[0]` or LEN past its being 0. -/
theorem pktdec_headerOnly {s : State} (hk : s.kind = 1#1) :
    ∃ t, exec .pktdec s = .next t ∧ (t.err = 0#3 → t.pv = 0#1) ∧
      (∀ m : Memory, ({ s with pk := m } : State).pkByte 0 = s.pkByte 0 →
        exec .pktdec { s with pk := m } = .next { t with pk := m }) ∧
      (∀ n : BitVec 6, n ≠ 0#6 → s.len ≠ 0#6 → exec .pktdec { s with len := n } = .next { t with len := n }) := by
  by_cases hlen : s.len = 0#6
  · exact ⟨_, execPktdec_of_empty hlen, fun _ => rfl, fun m _ => execPktdec_of_empty (s := { s with pk := m }) hlen,
      fun _ _ h => absurd hlen h⟩
  · by_cases hacc : s.HeaderAccepted (s.pkNat 0)
    · exact ⟨_, execPktdec_headerOnly hk hlen rfl hacc, fun _ => rfl,
        fun m hm => execPktdec_headerOnly (s := { s with pk := m }) hk hlen (congrArg BitVec.toNat hm) hacc,
        fun n hn _ => execPktdec_headerOnly (s := { s with len := n }) hk hn rfl hacc⟩
    · exact ⟨_, execPktdec_of_rejected hlen rfl hacc, nofun,
        fun m hm => execPktdec_of_rejected (s := { s with pk := m }) hlen (congrArg BitVec.toNat hm) hacc,
        fun n hn _ => execPktdec_of_rejected (s := { s with len := n }) hn rfl hacc⟩

/-- Settles O27, from its two halves. -/
theorem headerOnlyKindHasNoPayload : Obligations.HeaderOnlyKindHasNoPayload :=
  fun _ hinv hk => ⟨pktenc_headerOnly hinv hk, pktdec_headerOnly hk⟩

end Sys2Proof.Machine

/-! PROOFS. The control command (44_control.md R140): the OP of a legal word is its command's, and NOP. -/

namespace Sys2Proof

/-- R71: a legal word carries the OP of its command. -/
theorem op_of_decode {w : Word} {i : Instr} (h : decode w = .ok i) : i.op = w.toNat % 16 := by
  have hop := i.op_lt
  obtain ⟨hw, -⟩ := (decode_eq_ok_iff w i).1 h
  omega

/-- NOP is the one command of its OP (R74). -/
theorem Instr.eq_nop_of_op {i : Instr} (h : i.op = 0) : i = .nop := by
  cases i with
  | nop => rfl
  | _ => cases h

namespace Machine

theorem decode_eq_nop_iff (w : Word) : decode w = .ok .nop ↔ w = 0x00000000#32 :=
  decode_eq_ok_iff_ofNat (i := .nop) (by decide) w

/-- Settles O8: a legal word with OP = 0 is NOP's, so it is the word 0; and NOP has no branch, it only completes (R13). -/
theorem nopOnlyClearsStatus : Obligations.NopOnlyClearsStatus := by
  refine ⟨decode_eq_nop_iff, fun w hop hw ⟨i, hi⟩ => hw ?_, fun s => (complete_next s _).2 rfl⟩
  obtain rfl := Instr.eq_nop_of_op ((op_of_decode hi).trans hop)
  exact (decode_eq_nop_iff w).1 hi

end Machine

end Sys2Proof

/-! PROOFS. The errors of the commands (60_exceptions.md R151 to R160): the listed causes as a relation, which a command
obeys in both directions, and the STATUS a command finds. -/

namespace Sys2Proof.Machine

/-! ### The listed causes (R151 to R153) -/

/-- `Raises s i e c`: in state `s`, command `i` meets a listed cause of error `e` with category `c`. PKTDEC's length is a
cause only under an accepted header (R157). -/
inductive Raises (s : State) : Instr → CmdError → Category → Prop
  | plddecLength (h : s.len ≠ 14#6) : Raises s .plddec .validationError .payloadLength
  | pktdecLength (hkind : s.kind = 0#1) (hlen : 2 ≤ s.len.toNat) (hrest : s.len.toNat - 1 ≠ 14)
      (hacc : s.HeaderAccepted (s.pkNat 0)) : Raises s .pktdec .validationError .payloadLength
  | hdecHeader (h : ¬ s.HeaderAccepted s.hb.toNat) : Raises s .hdec .decodeError .header
  | pktdecHeader (hlen : s.len ≠ 0#6) (h : ¬ s.HeaderAccepted (s.pkNat 0)) : Raises s .pktdec .decodeError .header
  | f32dec {off : Nat} (h : s.len.toNat < off + 4) : Raises s (.f32dec off) .decodeError .float32
  | u16dec {off : Nat} (h : s.len.toNat < off + 2) : Raises s (.u16dec off) .decodeError .uint16
  | f32enc {off : Nat} (h : s.len.toNat < off + 4) : Raises s (.f32enc off) .encodeError .float32
  | u16enc {off : Nat} (h : s.len.toNat < off + 2) : Raises s (.u16enc off) .encodeError .uint16

/-- A listed cause ends its command in `raise` (R150). -/
theorem exec_of_raises {i : Instr} {s : State} {e : CmdError} {c : Category} (h : Raises s i e c) :
    exec i s = raise e c s := by
  cases h with
  | plddecLength h => exact (plddecLoadsOrRaises.2 s).2 h
  | pktdecLength hkind hlen hrest hacc =>
    have h0 : s.len ≠ 0#6 := mt (len_toNat_eq_iff s (by decide)).2 (by omega)
    have h1 : s.len ≠ 1#6 := mt (len_toNat_eq_iff s (by decide)).2 (by omega)
    have h15 : s.len ≠ 15#6 := mt (len_toNat_eq_iff s (by decide)).2 (by omega)
    exact (execPktdec_of_accepted h0 rfl hacc).trans (decodeRemainder_of_wrong_length _ _ hkind h1 h15)
  | hdecHeader h => exact execHdec_of_rejected h
  | pktdecHeader hlen h => exact execPktdec_of_rejected hlen rfl h
  | f32dec h => exact decodeField_past_len .float32 h
  | u16dec h => exact decodeField_past_len .uint16 h
  | f32enc h => exact encodeField_past_len .float32 _ h
  | u16enc h => exact encodeField_past_len .uint16 _ h

/-! ### No listed cause: STATUS is 0 (R13) -/

/-- If the outcome is a next state, STATUS is 0 there. -/
def LeavesStatusZero (o : Host.Outcome State Fault Refusal) : Prop :=
  ∀ t, o = .next t → t.err = 0#3 ∧ t.cat = 0#3

theorem leavesStatusZero_of_eq_next {o : Host.Outcome State Fault Refusal} {t : State} (h : o = .next t)
    (herr : t.err = 0#3) (hcat : t.cat = 0#3) : LeavesStatusZero o := by
  subst h
  rintro _ ⟨⟩
  exact ⟨herr, hcat⟩

theorem complete_leavesStatusZero (s : State) : LeavesStatusZero (complete s) :=
  leavesStatusZero_of_eq_next rfl rfl rfl

theorem fault_leavesStatusZero (r : Fault) : LeavesStatusZero (.fault r) := nofun

theorem encodeField_leavesStatusZero {w n off : Nat} {s : State} (c : Category) (v : BitVec w)
    (h : off + n ≤ s.len.toNat) : LeavesStatusZero (encodeField n c off v s) := by
  rw [encodeField_eq, if_neg h.not_gt]
  split_ifs
  · exact complete_leavesStatusZero _
  · exact fault_leavesStatusZero _

theorem decodeField_leavesStatusZero {n off : Nat} {s : State} (c : Category) (h : off + n ≤ s.len.toNat) :
    LeavesStatusZero (decodeField n c off s) := by
  rw [decodeField_eq, if_neg h.not_gt]
  split_ifs
  · exact complete_leavesStatusZero _
  · exact fault_leavesStatusZero _

/-- PKTDEC's three checks in their order (R157): the header's, then the remainder's length. -/
theorem execPktdec_raises_or_leavesStatusZero (s : State) :
    (∃ e c, Raises s .pktdec e c) ∨ LeavesStatusZero (execPktdec s) := by
  obtain ⟨_, hexec⟩ | ⟨hlen, hrej, _⟩ | ⟨hlen, hacc, hexec⟩ := execPktdec_cases s
  · exact .inr (leavesStatusZero_of_eq_next hexec rfl rfl)
  · refine .inl ⟨_, _, .pktdecHeader (mt (len_toNat_eq_iff s (by decide)).2 hlen) ?_⟩
    exact mt (hcheckPasses_iff s _).2 (ne_true_of_eq_false hrej)
  · rw [hexec]
    obtain ⟨_, hrem⟩ | ⟨hkind, hone, hrest, _⟩ | ⟨_, _, hrem⟩ :=
      decodeRemainder_cases (hdecPort (s.pkByte 0)) (hdecChan (s.pkByte 0)) s
    · exact .inr (leavesStatusZero_of_eq_next hrem rfl rfl)
    · exact .inl ⟨_, _, .pktdecLength ((BitVec.eq_zero_or_eq_one s.kind).resolve_right hkind) (by omega) hrest
        ((hcheckPasses_iff s _).1 hacc)⟩
    · exact .inr (leavesStatusZero_of_eq_next hrem rfl rfl)

/-- A command meets a listed cause or leaves STATUS 0: the list is complete. -/
theorem raises_or_leavesStatusZero (i : Instr) (s : State) :
    (∃ e c, Raises s i e c) ∨ LeavesStatusZero (exec i s) := by
  cases i with
  | nop => exact .inr (complete_leavesStatusZero _)
  | henc => exact .inr (complete_leavesStatusZero _)
  | hdec =>
    by_cases h : s.HeaderAccepted s.hb.toNat
    · exact .inr (leavesStatusZero_of_eq_next (execHdec_of_accepted h) rfl rfl)
    · exact .inl ⟨_, _, .hdecHeader h⟩
  | f32enc off => exact (lt_or_ge _ _).imp (⟨_, _, .f32enc ·⟩) (encodeField_leavesStatusZero _ _)
  | f32dec off => exact (lt_or_ge _ _).imp (⟨_, _, .f32dec ·⟩) (decodeField_leavesStatusZero _)
  | u16enc off => exact (lt_or_ge _ _).imp (⟨_, _, .u16enc ·⟩) (encodeField_leavesStatusZero _ _)
  | u16dec off => exact (lt_or_ge _ _).imp (⟨_, _, .u16dec ·⟩) (decodeField_leavesStatusZero _)
  | pldenc => exact .inr (leavesStatusZero_of_eq_next (execPldenc_next s) rfl rfl)
  | plddec =>
    obtain ⟨_, hexec⟩ | ⟨hlen, _⟩ := execPlddec_cases s
    · exact .inr (leavesStatusZero_of_eq_next hexec rfl rfl)
    · exact .inl ⟨_, _, .plddecLength (mt (len_toNat_eq_iff s (by decide)).2 hlen)⟩
  | pktenc => exact .inr (leavesStatusZero_of_eq_next (execPktenc_next s) rfl rfl)
  | pktdec => exact execPktdec_raises_or_leavesStatusZero s

/-! ### What a command leaves, by its cause -/

theorem eq_setStatus_of_raises {i : Instr} {s t : State} {e : CmdError} {c : Category} (h : exec i s = .next t)
    (hr : Raises s i e c) : t = s.setStatus e.code c.code :=
  (raise_next e c s t).1 ((exec_of_raises hr).symm.trans h)

theorem CmdError.code_injective : Function.Injective CmdError.code := by
  intro e e'
  cases e <;> cases e' <;> decide

/-- After a command, STATUS is 0, or STATUS is that of a listed cause and nothing else has changed. -/
theorem exec_status_cases {i : Instr} {s t : State} (h : exec i s = .next t) :
    (∃ e c, Raises s i e c ∧ t = s.setStatus e.code c.code) ∨ (t.err = 0#3 ∧ t.cat = 0#3) :=
  (raises_or_leavesStatusZero i s).imp (fun ⟨e, c, hr⟩ => ⟨e, c, hr, eq_setStatus_of_raises h hr⟩) (· t h)

/-- ERR is an error's code exactly when the command met a listed cause of it. -/
theorem err_eq_code_iff {i : Instr} {s t : State} (h : exec i s = .next t) (e : CmdError) :
    t.err = e.code ↔ ∃ c, Raises s i e c := by
  constructor
  · intro he
    obtain ⟨e', c, hr, rfl⟩ | ⟨hzero, -⟩ := exec_status_cases h
    · obtain rfl : e' = e := CmdError.code_injective he
      exact ⟨c, hr⟩
    · exact absurd (he.symm.trans hzero) e.code_ne_zero
  · rintro ⟨c, hr⟩
    rw [eq_setStatus_of_raises h hr]
    rfl

/-- Settles O31: the two cases of `exec_status_cases`. -/
theorem failedCommandChangesOnlyStatus : Obligations.FailedCommandChangesOnlyStatus := by
  intro i s t h
  obtain ⟨e, c, -, rfl⟩ | ⟨herr, hcat⟩ := exec_status_cases h
  · exact ⟨fun _ => rfl, fun h0 => absurd h0 e.code_ne_zero⟩
  · exact ⟨fun hne => absurd herr hne, fun _ => hcat⟩

/-! ### The causes and the category of each error -/

theorem raises_validationError_iff (i : Instr) (s : State) : (∃ c, Raises s i .validationError c) ↔
    (i = .plddec ∧ s.len ≠ 14#6) ∨
      (i = .pktdec ∧ s.kind = 0#1 ∧ 2 ≤ s.len.toNat ∧ s.len.toNat - 1 ≠ 14 ∧ s.HeaderAccepted (s.pkNat 0)) := by
  constructor
  · rintro ⟨_, hr⟩
    cases hr with
    | plddecLength h => exact .inl ⟨rfl, h⟩
    | pktdecLength hkind hlen hrest hacc => exact .inr ⟨rfl, hkind, hlen, hrest, hacc⟩
  · rintro (⟨rfl, h⟩ | ⟨rfl, hkind, hlen, hrest, hacc⟩)
    · exact ⟨_, .plddecLength h⟩
    · exact ⟨_, .pktdecLength hkind hlen hrest hacc⟩

theorem raises_decodeError_iff (i : Instr) (s : State) : (∃ c, Raises s i .decodeError c) ↔
    (i = .hdec ∧ ¬ s.HeaderAccepted s.hb.toNat) ∨ (i = .pktdec ∧ s.len ≠ 0#6 ∧ ¬ s.HeaderAccepted (s.pkNat 0)) ∨
      (∃ off, i = .f32dec off ∧ s.len.toNat < off + 4) ∨ (∃ off, i = .u16dec off ∧ s.len.toNat < off + 2) := by
  constructor
  · rintro ⟨_, hr⟩
    cases hr with
    | hdecHeader h => exact .inl ⟨rfl, h⟩
    | pktdecHeader hlen h => exact .inr (.inl ⟨rfl, hlen, h⟩)
    | f32dec h => exact .inr (.inr (.inl ⟨_, rfl, h⟩))
    | u16dec h => exact .inr (.inr (.inr ⟨_, rfl, h⟩))
  · rintro (⟨rfl, h⟩ | ⟨rfl, hlen, h⟩ | ⟨off, rfl, h⟩ | ⟨off, rfl, h⟩)
    · exact ⟨_, .hdecHeader h⟩
    · exact ⟨_, .pktdecHeader hlen h⟩
    · exact ⟨_, .f32dec h⟩
    · exact ⟨_, .u16dec h⟩

theorem raises_encodeError_iff (i : Instr) (s : State) : (∃ c, Raises s i .encodeError c) ↔
    (∃ off, i = .f32enc off ∧ s.len.toNat < off + 4) ∨ (∃ off, i = .u16enc off ∧ s.len.toNat < off + 2) := by
  constructor
  · rintro ⟨_, hr⟩
    cases hr with
    | f32enc h => exact .inl ⟨_, rfl, h⟩
    | u16enc h => exact .inr ⟨_, rfl, h⟩
  · rintro (⟨off, rfl, h⟩ | ⟨off, rfl, h⟩)
    · exact ⟨_, .f32enc h⟩
    · exact ⟨_, .u16enc h⟩

/-- Settles O32: `err_eq_code_iff` turns each ERR into its causes, and the cause met says CAT. -/
theorem errorsHaveExactlyTheListedCauses : Obligations.ErrorsHaveExactlyTheListedCauses := by
  intro i s t h
  refine ⟨(err_eq_code_iff h .validationError).trans (raises_validationError_iff i s),
    (err_eq_code_iff h .decodeError).trans (raises_decodeError_iff i s),
    (err_eq_code_iff h .encodeError).trans (raises_encodeError_iff i s), ?_⟩
  obtain ⟨e, c, hr, rfl⟩ | ⟨herr, -⟩ := exec_status_cases h
  · cases hr <;> simp [CmdError.code, Category.code]
  · simp [herr]

/-! ### The old STATUS (R30, R160) -/

theorem encodeField_setStatus {w : Nat} (n : Nat) (c : Category) (off : Nat) (v : BitVec w) (s : State)
    (err cat : BitVec 3) : encodeField n c off v (s.setStatus err cat) = encodeField n c off v s := by
  rw [encodeField_eq, encodeField_eq]; rfl

/-- Every end of a command overwrites STATUS, and no check and no value that a command stores reads it. -/
theorem exec_setStatus (i : Instr) (s : State) (err cat : BitVec 3) : exec i (s.setStatus err cat) = exec i s := by
  cases i with
  | f32enc off => exact encodeField_setStatus _ _ off _ s err cat
  | u16enc off => exact encodeField_setStatus _ _ off _ s err cat
  | pldenc => rw [exec, exec, execPldenc_next, execPldenc_next]; rfl
  | pktenc => rw [exec, exec, execPktenc_next, execPktenc_next]; rfl
  | nop | henc | hdec | f32dec | u16dec | plddec | pktdec => rfl

/-- Settles O33: the state with another STATUS is `setStatus`. -/
theorem commandsIgnoreOldStatus : Obligations.CommandsIgnoreOldStatus := exec_setStatus

end Sys2Proof.Machine

/-! PROOFS. Reset (70_reset_and_hazards.md R180). -/

namespace Sys2Proof.Machine

/-- R180: the reset input leaves only what the host has still to issue (log entry 5). -/
theorem step_reset {s : State} {rest : List HostEvent} (h : s.pending = .reset :: rest) :
    step s = .next { State.reset with pending := rest } := by
  rw [step_cons h]; rfl

/-- R41: after reset PK lists no cell, and an unlisted byte reads 0x00. -/
@[simp] theorem State.reset_pkByte (i : Nat) : State.reset.pkByte i = 0#8 := rfl

/-- Settles O49: the next state is `State.reset` but for the pending list (`step_reset`), so each register holds the
table's value by definition, and PK by `State.reset_pkByte`. -/
theorem resetGivesTheTable : Obligations.ResetGivesTheTable := by
  intro s rest h
  exact ⟨_, step_reset h, rfl, rfl, rfl, rfl, rfl, rfl, rfl, rfl, rfl, rfl, rfl, rfl, rfl, rfl, rfl, rfl, rfl, rfl,
    fun i _ => State.reset_pkByte i⟩

end Sys2Proof.Machine

/-! PROOFS. The encoder and the decoder (30_encoding.md R75, R77): the word of a command as a number, and decode and
encode as the two directions of one correspondence. -/

namespace Sys2Proof

/-- R77: a command is well formed when its OFF fits the field; a command without an offset has OFF 0. -/
theorem Instr.wf_iff (i : Instr) : i.wf = true ↔ i.off < 32 := by
  cases i with
  | f32enc off | f32dec off | u16enc off | u16dec off => exact decide_eq_true_iff
  | nop | henc | hdec | pldenc | plddec | pktenc | pktdec => simp [Instr.wf, Instr.off]

/-- R77: OFF and OP do not overlap in the word. -/
theorem encode_toNat {i : Instr} (h : i.off < 32) : (encode i).toNat = 256 * i.off + i.op := by
  have hop : i.op < 2 ^ 8 := i.op_lt.trans (by decide)
  rw [encode, BitVec.toNat_or, BitVec.toNat_ofNat, BitVec.toNat_ofNat, Nat.shiftLeft_eq, Nat.mod_eq_of_lt (by omega),
    Nat.mod_eq_of_lt (by omega), mul_comm, ← Nat.two_pow_add_eq_or_of_lt hop]

/-- Settles O1: a command with an offset that fits has the one word of `decode_eq_ok_iff`, which is what the encoder
gives. -/
theorem decodeEncodeAgree : Obligations.DecodeEncodeAgree := by
  intro w i
  rw [decode_eq_ok_iff, and_comm, Instr.wf_iff]
  refine and_congr_right fun hoff => ?_
  rw [← encode_toNat hoff, BitVec.toNat_inj, eq_comm]

theorem decode_encode {i : Instr} (h : i.wf = true) : decode (encode i) = .ok i :=
  (decodeEncodeAgree _ _).2 ⟨h, rfl⟩

/-- Settles O4: ten closed computations. -/
theorem sampleWordsDecode : Obligations.SampleWordsDecode :=
  ⟨rfl, rfl, rfl, rfl, rfl, rfl, rfl, rfl, rfl, rfl⟩

end Sys2Proof

/-! PROOFS. The step (20_memory.md R52 to R61): what a host access can do, in four cases; the run of a command; and the
registers as the host writes them. -/

namespace Sys2Proof.Machine

/-! ### The address map, inverted for aligned accesses -/

theorem addr_toNat_of_regOfWord {k : Nat} {r : Reg} (h : regOfWord k = some r) : r.addr.toNat = 4 * k := by
  unfold regOfWord at h
  split at h <;> cases h <;> rfl

/-- An aligned address of a register is the address the register has in R20. -/
theorem eq_addr_of_target {a : Addr} {r : Reg} (ha : aligned a = true) (ht : target a = .reg r) : a = r.addr := by
  have hword : regOfWord (a.toNat / 4) = some r := by
    unfold target at ht
    split_ifs at ht
    split at ht
    · cases ht; assumption
    · cases ht
  have hmod := (aligned_iff a).1 ha
  have haddr := addr_toNat_of_regOfWord hword
  exact BitVec.eq_of_toNat_eq (by omega)

theorem wr32_of_reg {r : Reg} (hr : r ≠ .cmd) (w : Word) (s : State) :
    wr32 r.addr w s = .next { writeReg r w s with response := some .done } := by
  rw [wr32, if_pos (aligned_addr r), target_addr r]
  cases r with
  | cmd => contradiction
  | _ => rfl

/-! ### What a host access can do -/

/-- R52 to R61: an access runs a command, writes one register, writes bytes of PK, or changes the answer alone. -/
theorem hostAccess_cases (x : HostAccess) (s : State) :
    (∃ w, x = .wr32 Config.cmdAddr w ∧ hostAccess x s = runCommand w { s with response := some .done }) ∨
    (∃ r w, hostAccess x s = .next { writeReg r w s with response := some .done }) ∨
    (∃ i bs, i + bs.length ≤ 32 ∧ hostAccess x s = .next { writePk i bs s with response := some .done }) ∨
    (∃ v : Response, hostAccess x s = .next { s with response := some v }) := by
  by_cases hx : admits x = true
  · cases x with
    | rd32 a =>
      obtain ⟨v, hv⟩ := read_answers ⟨a, .inl rfl⟩ s
      exact .inr (.inr (.inr ⟨v, hv s.pending s.response⟩))
    | rd8 a =>
      obtain ⟨v, hv⟩ := read_answers ⟨a, .inr rfl⟩ s
      exact .inr (.inr (.inr ⟨v, hv s.pending s.response⟩))
    | wr32 a w =>
      obtain ⟨ha, ht⟩ := (admits_wr32_iff a w).1 hx
      obtain ⟨r, hr, -⟩ | ⟨hpk, hlo, hhi⟩ | ⟨hun, -⟩ := target_cases a
      · obtain rfl := eq_addr_of_target ha hr
        by_cases hc : r = .cmd
        · subst hc
          exact .inl ⟨w, rfl, rfl⟩
        · exact .inr (.inl ⟨r, w, wr32_of_reg hc w s⟩)
      · have hmod := (aligned_iff a).1 ha
        exact .inr (.inr (.inl ⟨_, _, by rw [bytesOf_length]; omega, wr32_of_pk ha hpk w s⟩))
      · contradiction
    | wr8 a b =>
      obtain ⟨r, hr, -⟩ | ⟨hpk, hlo, hhi⟩ | ⟨hun, -⟩ := target_cases a
      · simp [admits_wr8_iff, hr] at hx
      · exact .inr (.inr (.inl ⟨_, _, by rw [List.length_singleton]; omega, wr8_of_pk hpk b s⟩))
      · simp [admits_wr8_iff, hun] at hx
    | otherWidth n a => cases hx
  · exact .inr (.inr (.inr ⟨.busError, hostAccess_of_not_admits s (by simpa using hx)⟩))

/-- R27, R55: no register write reaches STATUS. -/
theorem writeReg_status (r : Reg) (w : Word) (s : State) :
    (writeReg r w s).err = s.err ∧ (writeReg r w s).cat = s.cat := by
  cases r <;> exact ⟨rfl, rfl⟩

/-- Settles O34: of the four cases of `hostAccess_cases` only the first, a CMD write, reaches STATUS. -/
theorem onlyCommandsWriteStatus : Obligations.OnlyCommandsWriteStatus := by
  intro s t x rest hp hx h
  rw [step_cons hp, hostEvent] at h
  obtain ⟨w, rfl, -⟩ | ⟨r, w, he⟩ | ⟨i, bs, -, he⟩ | ⟨v, he⟩ := hostAccess_cases x { s with pending := rest }
  · exact absurd rfl (hx w)
  all_goals rw [he] at h; cases h
  · exact writeReg_status r w _
  · exact ⟨rfl, rfl⟩
  · exact ⟨rfl, rfl⟩

/-! ### The command that a step runs (R61, R70) -/

theorem runCommand_of_decode {w : Word} {i : Instr} (h : decode w = .ok i) (s : State) :
    runCommand w s = exec i s := by
  rw [runCommand, h]

/-- Settles O5: the step is the run of the word written (`step_cmdWrite`). -/
theorem stepRunsDecodedCommand : Obligations.StepRunsDecodedCommand := fun _ _ _ _ hp hd =>
  (step_cmdWrite hp).trans (runCommand_of_decode hd _)

theorem decode_of_decodeTableWord {n w : Nat} {i : Instr} (h : decodeTableWord n w = some i) :
    decode (tableWord n w) = .ok i := by
  unfold decodeTableWord at h
  split_ifs at h
  cases hd : decode (tableWord n w) with
  | ok j => rw [hd] at h; cases h; rfl
  | error e => rw [hd] at h; cases h

/-- Settles O6: `withFetchWord` makes the write of O5 the first pending event. -/
theorem fetchWordRunsNext : Obligations.FetchWordRunsNext := fun s w i h =>
  stepRunsDecodedCommand (s.withFetchWord 32 w) s.pending _ i rfl (decode_of_decodeTableWord h)

/-- Settles O7: with nothing pending the step takes no event. -/
theorem idleStepChangesNothing : Obligations.IdleStepChangesNothing := fun _ h => step_nil h

end Sys2Proof.Machine

/-! PROOFS. The invariant (10_state.md R38, R41; 60_exceptions.md): from a state that meets it every command, every host
event, every step and every run goes on to a state that meets it. -/

namespace Sys2Proof.Machine

/-! ### How a command ends (R13, R150) -/

theorem goesOn_next {t : State} (h : t.Inv) : GoesOn (.next t) := ⟨t, rfl, h⟩

/-- STATUS, LEN and PK are all that the invariant speaks of: one lemma for a write of each. -/
theorem inv_setStatus {s : State} {e c : BitVec 3} (hinv : s.Inv) (hec : (e, c) ∈ legalStatus) :
    (s.setStatus e c).Inv :=
  have ⟨hwf, hlen, _⟩ := hinv
  ⟨hwf, hlen, hec⟩

theorem inv_setLen {s : State} {n : BitVec 6} (hinv : s.Inv) (hn : n.toNat ≤ 32) : (s.setLen n).Inv :=
  have ⟨hwf, _, hstatus⟩ := hinv
  ⟨hwf, hn, hstatus⟩

theorem inv_writePk {i : Nat} {bs : List Byte} {s : State} (hinv : s.Inv) (h : i + bs.length ≤ 32) :
    (writePk i bs s).Inv :=
  have ⟨hwf, hrest⟩ := hinv
  ⟨memWrite_wf ((memWrite_eq_some i bs s _).2 ⟨h, rfl⟩) hwf, hrest⟩

theorem complete_goesOn {s : State} (hinv : s.Inv) : GoesOn (complete s) :=
  goesOn_next (inv_setStatus hinv (by decide))

theorem raise_goesOn {s : State} {e : CmdError} {c : Category} (hinv : s.Inv) (hec : (e.code, c.code) ∈ legalStatus) :
    GoesOn (raise e c s) :=
  goesOn_next (inv_setStatus hinv hec)

/-! ### The commands -/

theorem encodeField_goesOn {w n off : Nat} {c : Category} {s : State} (v : BitVec w) (hinv : s.Inv)
    (hc : (CmdError.encodeError.code, c.code) ∈ legalStatus) : GoesOn (encodeField n c off v s) := by
  have ⟨_, hlen, _⟩ := hinv
  rw [encodeField_eq]
  split_ifs with h h'
  · exact raise_goesOn hinv hc
  · exact complete_goesOn (inv_writePk hinv (by rwa [bytesOf_length]))
  · omega

theorem decodeField_goesOn {n off : Nat} {c : Category} {s : State} (hinv : s.Inv)
    (hc : (CmdError.decodeError.code, c.code) ∈ legalStatus) : GoesOn (decodeField n c off s) := by
  have ⟨_, hlen, _⟩ := hinv
  rw [decodeField_eq]
  split_ifs with h h'
  · exact raise_goesOn hinv hc
  · exact complete_goesOn hinv
  · omega

theorem storeBuffer_goesOn {out : List Byte} {s : State} (hinv : s.Inv) (h : out.length ≤ 32) :
    GoesOn (storeBuffer out s) := by
  have hn : (BitVec.ofNat 6 out.length).toNat ≤ 32 := by
    rw [BitVec.toNat_ofNat, Nat.mod_eq_of_lt (by omega)]; exact h
  rw [storeBuffer_next out s h]
  exact goesOn_next (inv_setStatus (inv_setLen (inv_writePk (i := 0) hinv ((Nat.zero_add _).trans_le h)) hn)
    (by decide))

/-- R132's cases write registers other than LEN and PK. -/
theorem execPktdec_goesOn {s : State} (hinv : s.Inv) : GoesOn (execPktdec s) := by
  obtain ⟨_, h⟩ | ⟨_, _, h⟩ | ⟨_, _, h⟩ := execPktdec_cases s <;> rw [h]
  · exact goesOn_next (inv_setStatus hinv (by decide))
  · exact goesOn_next (inv_setStatus hinv (by decide))
  · obtain ⟨_, h⟩ | ⟨_, _, _, h⟩ | ⟨_, _, h⟩ :=
      decodeRemainder_cases (hdecPort (s.pkByte 0)) (hdecChan (s.pkByte 0)) s <;> rw [h] <;>
      exact goesOn_next (inv_setStatus hinv (by decide))

theorem exec_goesOn (i : Instr) {s : State} (hinv : s.Inv) : GoesOn (exec i s) := by
  cases i with
  | nop => exact complete_goesOn hinv
  | henc => exact complete_goesOn (s := s.setHb _) hinv
  | hdec =>
    obtain ⟨_, h⟩ | ⟨_, h⟩ := execHdec_cases s <;> rw [exec, h] <;> exact goesOn_next (inv_setStatus hinv (by decide))
  | f32enc off => exact encodeField_goesOn _ hinv (by decide)
  | f32dec off => exact decodeField_goesOn hinv (by decide)
  | u16enc off => exact encodeField_goesOn _ hinv (by decide)
  | u16dec off => exact decodeField_goesOn hinv (by decide)
  | pldenc => exact storeBuffer_goesOn hinv ((s.cmdBytes_length _).trans_le (by decide))
  | plddec =>
    obtain ⟨_, h⟩ | ⟨_, h⟩ := execPlddec_cases s <;> rw [exec, h] <;> exact goesOn_next (inv_setStatus hinv (by decide))
  | pktenc => exact storeBuffer_goesOn hinv (s.packetBytes_length_le.trans (by decide))
  | pktdec => exact execPktdec_goesOn hinv

/-- Settles O54: a command goes on, and the invariant holds of STATUS. -/
theorem everyCommandAnswers : Obligations.EveryCommandAnswers := by
  intro i s hinv
  obtain ⟨t, h, _, _, hstatus⟩ := exec_goesOn i hinv
  exact ⟨t, h, hstatus⟩

/-! ### The host's events -/

theorem runCommand_goesOn (w : Word) {s : State} (hinv : s.Inv) : GoesOn (runCommand w s) := by
  unfold runCommand
  split
  · exact exec_goesOn _ hinv
  · exact raise_goesOn hinv (by decide)

/-- R38: LEN is clamped on the way in; no other register write reaches what the invariant speaks of. -/
theorem inv_writeReg (r : Reg) (w : Word) {s : State} (hinv : s.Inv) : (writeReg r w s).Inv := by
  cases r with
  | pklen => exact inv_setLen hinv (legalLen_le w)
  | _ => exact hinv

theorem hostAccess_goesOn (x : HostAccess) {s : State} (hinv : s.Inv) : GoesOn (hostAccess x s) := by
  obtain ⟨w, -, h⟩ | ⟨r, w, h⟩ | ⟨i, bs, hbs, h⟩ | ⟨v, h⟩ := hostAccess_cases x s <;> rw [h]
  · exact runCommand_goesOn w hinv
  · exact goesOn_next (inv_writeReg r w hinv)
  · exact goesOn_next (inv_writePk hinv hbs)
  · exact goesOn_next hinv

/-- Settles O51: no cell, LEN 0, STATUS 0. -/
theorem resetHasInvariant : Obligations.ResetHasInvariant := ⟨Memory.wf_reset, by decide, by decide⟩

theorem hostEvent_goesOn (e : HostEvent) {s : State} (hinv : s.Inv) : GoesOn (hostEvent e s) := by
  cases e with
  | access x => exact hostAccess_goesOn x hinv
  | reset => exact goesOn_next resetHasInvariant

/-! ### The step and the run -/

/-- Settles O53: a step is the first pending event, or nothing. -/
theorem everyStepGoesOn : Obligations.EveryStepGoesOn := by
  intro s hinv
  cases hp : s.pending with
  | nil => rw [step_nil hp]; exact goesOn_next hinv
  | cons e rest => rw [step_cons hp]; exact hostEvent_goesOn e hinv

/-- Settles O52: the state that O53 goes on to is the only next state. -/
theorem stepKeepsInvariant : Obligations.StepKeepsInvariant := by
  intro s t hinv h
  obtain ⟨t', h', hinv'⟩ := everyStepGoesOn s hinv
  obtain rfl := Host.Outcome.next.inj (h.symm.trans h')
  exact hinv'

/-- A run of one step more begins with that step. -/
theorem run_succ {M : Host.Core} {s t : M.State} (n : Nat) (h : M.step s = .next t) : M.run (n + 1) s = M.run n t := by
  rw [Host.Core.run, h]

/-- Settles O55, by induction on the length of the run. -/
theorem runNeverStops : Obligations.RunNeverStops := by
  intro n
  induction n with
  | zero => exact fun s hinv => goesOn_next hinv
  | succ n ih =>
    intro s hinv
    obtain ⟨t, ht, hinv'⟩ := everyStepGoesOn s hinv
    rw [run_succ (M := core) n ht]
    exact ih t hinv'

end Sys2Proof.Machine

/-! PROOFS. The registers as the host writes them (20_memory.md R55, 10_state.md R42): the fields of the word written by
arithmetic, and the word read back; and the reset table as the host reads it (R180). -/

namespace Sys2Proof.Machine

/-! ### The fields of a word written (R55) -/

/-- A field of a word, as the statements write it. -/
theorem extractLsb'_eq_ofNat (i n : Nat) (w : Word) : w.extractLsb' i n = BitVec.ofNat n (w.toNat / 2 ^ i) := by
  rw [← Nat.shiftRight_eq_div_pow]; rfl

theorem legalLen_eq (w : Word) : legalLen w = BitVec.ofNat 6 (min (w.toNat % 64) 32) := by
  have hlow : (w.extractLsb' 0 6).toNat = w.toNat % 64 := by rw [BitVec.extractLsb'_toNat, Nat.shiftRight_zero]
  unfold legalLen
  split_ifs with h
  · rw [min_eq_right (by omega)]
  · rw [min_eq_left (by omega), ← hlow, BitVec.ofNat_toNat, BitVec.setWidth_eq]

theorem step_wr32_of_reg {s : State} {r : Reg} {w : Word} {rest : List HostEvent} (hr : r ≠ .cmd)
    (h : s.pending = .access (.wr32 r.addr w) :: rest) :
    step s = .next { writeReg r w { s with pending := rest } with response := some .done } :=
  (step_cons h).trans (wr32_of_reg hr w _)

/-- Settles O45: each field by `extractLsb'_eq_ofNat`, and the clamp of LEN by `legalLen_eq`. -/
theorem registerWritesItsFields : Obligations.RegisterWritesItsFields := by
  intro s r w rest hr hp
  rw [step_wr32_of_reg hr hp]
  cases r with
  | cmd => contradiction
  | status | fv | roll | pitch | yaw => rfl
  | pklen => simp only [writeReg, legalLen_eq]; rfl
  | ctrl | hdr | hb | thrust | payv | portOk | chanOk =>
    simp only [writeReg, extractLsb'_eq_ofNat, pow_zero, Nat.div_one] <;> rfl

/-! ### A register written and read back (R42) -/

/-- The low bits of a word, by a mask. -/
theorem setWidth_extractLsb'_zero {n : Nat} (h : n ≤ 32) (w : Word) :
    (w.extractLsb' 0 n).setWidth 32 = w &&& BitVec.ofNat 32 (2 ^ n - 1) := by
  have hpow : 2 ^ n ≤ 2 ^ 32 := Nat.pow_le_pow_right (by decide) h
  have hpos : 0 < 2 ^ n := Nat.two_pow_pos n
  rw [← BitVec.toNat_inj, BitVec.toNat_setWidth_of_le h, BitVec.extractLsb'_toNat, BitVec.toNat_and,
    BitVec.toNat_ofNat, Nat.mod_eq_of_lt (b := 2 ^ 32) (by omega), Nat.and_two_pow_sub_one_eq_mod, Nat.shiftRight_zero]

theorem ctrl_fields_append (w : Word) :
    w.extractLsb' 2 1 ++ w.extractLsb' 1 1 ++ w.extractLsb' 0 1 = w.extractLsb' 0 3 := by
  rw [BitVec.extractLsb'_append_extractLsb'_eq_extractLsb' (start₁ := 1) (len₁ := 1) (start₂ := 2) rfl,
    BitVec.extractLsb'_append_extractLsb'_eq_extractLsb' (start₁ := 0) (len₁ := 1) (start₂ := 1) rfl]

/-- HDR's reserved bits 7:6 are 0 between its fields (R31). -/
theorem hdr_fields_append (w : Word) :
    w.extractLsb' 8 1 ++ 0#2 ++ w.extractLsb' 4 2 ++ w.extractLsb' 0 4 = w.extractLsb' 0 9 &&& 0x13F#9 := by
  have hcut : w.extractLsb' 0 9
      = w.extractLsb' 8 1 ++ w.extractLsb' 6 2 ++ w.extractLsb' 4 2 ++ w.extractLsb' 0 4 := by
    rw [BitVec.extractLsb'_append_extractLsb'_eq_extractLsb' (start₁ := 6) (len₁ := 2) (start₂ := 8) rfl,
      BitVec.extractLsb'_append_extractLsb'_eq_extractLsb' (start₁ := 4) (len₁ := 2) (start₂ := 6) rfl,
      BitVec.extractLsb'_append_extractLsb'_eq_extractLsb' (start₁ := 0) (len₁ := 4) (start₂ := 4) rfl]
  symm
  calc w.extractLsb' 0 9 &&& 0x13F#9
    _ = (w.extractLsb' 8 1 ++ w.extractLsb' 6 2 ++ w.extractLsb' 4 2 ++ w.extractLsb' 0 4) &&&
          (BitVec.allOnes 1 ++ 0#2 ++ BitVec.allOnes 2 ++ BitVec.allOnes 4) := by rw [hcut]; rfl
    _ = w.extractLsb' 8 1 ++ 0#2 ++ w.extractLsb' 4 2 ++ w.extractLsb' 0 4 := by
      simp only [BitVec.and_append, BitVec.and_allOnes, BitVec.and_zero]

/-- The bits of a register that the host can write, for a register other than CMD, STATUS and PKLEN (R42). -/
def Reg.mask : Reg → Word
  | .ctrl => 0x00000007#32
  | .hdr => 0x0000013F#32
  | .hb => 0x000000FF#32
  | .thrust => 0x0000FFFF#32
  | .payv => 0x00000001#32
  | .portOk => 0x0000FFFF#32
  | .chanOk => 0x0000000F#32
  | _ => 0xFFFFFFFF#32

theorem readReg_writeReg {r : Reg} (hcmd : r ≠ .cmd) (hstatus : r ≠ .status) (hlen : r ≠ .pklen) (w : Word)
    (s : State) : readReg r (writeReg r w s) = w &&& r.mask := by
  cases r with
  | cmd | status | pklen => contradiction
  | fv | roll | pitch | yaw => exact (BitVec.and_allOnes (x := w)).symm
  | hb | thrust | payv | portOk | chanOk => exact setWidth_extractLsb'_zero (by decide) w
  | ctrl => exact (congrArg (BitVec.setWidth 32) (ctrl_fields_append w)).trans (setWidth_extractLsb'_zero (by decide) w)
  | hdr =>
    calc readReg .hdr (writeReg .hdr w s)
      _ = (w.extractLsb' 0 9 &&& 0x13F#9).setWidth 32 := congrArg (BitVec.setWidth 32) (hdr_fields_append w)
      _ = w &&& Reg.hdr.mask := by
        rw [BitVec.setWidth_and, setWidth_extractLsb'_zero (by decide), BitVec.and_assoc]; rfl

theorem writeReg_pending (r : Reg) (w : Word) (s : State) : (writeReg r w s).pending = s.pending := by
  cases r <;> rfl

theorem step_rd32_of_reg {s : State} {r : Reg} {rest : List HostEvent}
    (h : s.pending = .access (.rd32 r.addr) :: rest) :
    step s = .next { s with pending := rest, response := some (.word (readReg r s)) } := by
  rw [step_cons h, hostEvent, hostAccess, rd32_of_reg (aligned_addr r) (target_addr r), readReg_port]

/-- Settles O46: the write is O45's, and the read answers `readReg_writeReg`. -/
theorem writtenRegisterReadsBackMasked : Obligations.WrittenRegisterReadsBackMasked := by
  intro s r w rest hp hcmd hstatus hlen
  obtain ⟨t, ht, hnext, hval⟩ : ∃ t, step s = .next t ∧ t.pending = .access (.rd32 r.addr) :: rest ∧
      readReg r t = w &&& r.mask :=
    ⟨_, step_wr32_of_reg hcmd hp, writeReg_pending .., (readReg_port ..).trans (readReg_writeReg hcmd hstatus hlen w _)⟩
  refine ⟨t, _, ht, step_rd32_of_reg hnext, congrArg (some ∘ Response.word) (hval.trans ?_)⟩
  cases r <;> rfl

/-! ### The reset table (R180) -/

/-- Settles O50: the state after reset is the table. -/
theorem resetStateReadsAsTheTable : Obligations.ResetStateReadsAsTheTable :=
  ⟨fun r => by cases r <;> rfl, fun i _ => State.reset_pkByte i⟩

end Sys2Proof.Machine

/-! PROOFS. The header byte and the header commands as inverses (41_header.md R110, R116, R117). -/

namespace Sys2Proof.Machine

/-! ### The header byte -/

/-- A byte, cut around its bits 3:2. -/
theorem byte_eq_append (b : Byte) : b.extractLsb' 4 4 ++ b.extractLsb' 2 2 ++ b.extractLsb' 0 2 = b := by
  rw [BitVec.extractLsb'_append_extractLsb'_eq_extractLsb' (start₁ := 2) (len₁ := 2) (start₂ := 4) rfl,
    BitVec.extractLsb'_append_extractLsb'_eq_extractLsb' (start₁ := 0) (len₁ := 2) (start₂ := 2) rfl,
    BitVec.extractLsb'_eq_self]

/-- R117: decoding a header byte and encoding it again clears its bits 3:2. -/
theorem hbyte_hdec (b : Byte) : hbyte (hdecPort b) (hdecChan b) = b &&& 0xF3#8 := by
  symm
  calc b &&& 0xF3#8
    _ = (b.extractLsb' 4 4 ++ b.extractLsb' 2 2 ++ b.extractLsb' 0 2) &&&
          (BitVec.allOnes 4 ++ 0#2 ++ BitVec.allOnes 2) := by rw [byte_eq_append]; rfl
    _ = b.extractLsb' 4 4 ++ 0#2 ++ b.extractLsb' 0 2 := by
      rw [BitVec.and_append, BitVec.and_append, BitVec.and_allOnes, BitVec.and_allOnes, BitVec.and_zero]

theorem hdecPort_hbyte (p : BitVec 4) (c : BitVec 2) : hdecPort (hbyte p c) = p := by
  have hc := c.isLt
  rw [← BitVec.toNat_inj, hdecPort_toNat, hbyte_toNat]
  omega

theorem hdecChan_hbyte (p : BitVec 4) (c : BitVec 2) : hdecChan (hbyte p c) = c := by
  have hc := c.isLt
  rw [← BitVec.toNat_inj, hdecChan_toNat, hbyte_toNat]
  omega

/-- R110: the bits of a header byte other than 3:2 are its fields. -/
theorem hdec_eq_of_mask {b b' : Byte} (h : b &&& 0xF3#8 = b' &&& 0xF3#8) :
    hdecPort b = hdecPort b' ∧ hdecChan b = hdecChan b' := by
  rw [← hbyte_hdec, ← hbyte_hdec] at h
  exact ⟨by rw [← hdecPort_hbyte (hdecPort b) (hdecChan b), h, hdecPort_hbyte],
    by rw [← hdecChan_hbyte (hdecPort b) (hdecChan b), h, hdecChan_hbyte]⟩

theorem hbyte_injective {p p' : BitVec 4} {c c' : BitVec 2} (h : hbyte p c = hbyte p' c') : p = p' ∧ c = c' :=
  ⟨by rw [← hdecPort_hbyte p c, h, hdecPort_hbyte], by rw [← hdecChan_hbyte p c, h, hdecChan_hbyte]⟩

/-! ### The two commands, one after the other -/

/-- R113 on the header byte of a Port and a Channel. -/
theorem hcheckPasses_iff_recognized (s : State) (p : BitVec 4) (c : BitVec 2) : s.hcheckPasses p c = true ↔
    s.hchk = 0#1 ∨ (s.portOk.getLsbD p.toNat = true ∧ s.chanOk.getLsbD c.toNat = true) := by
  simp [State.hcheckPasses, State.recognized]

/-- Settles O12: HDEC checks and writes the Port and the Channel that HENC packed. -/
theorem headerRoundTrip : Obligations.HeaderRoundTrip := by
  intro s t u ht hu
  cases ht
  have hport : hdecPort u.hb = s.port := by rw [hu]; exact hdecPort_hbyte ..
  have hchan : hdecChan u.hb = s.chan := by rw [hu]; exact hdecChan_hbyte ..
  obtain ⟨hc, h⟩ | ⟨hc, h⟩ := execHdec_cases u <;> rw [hport, hchan] at hc
  · rw [hport, hchan] at h
    exact ⟨fun _ => h, fun hn => absurd ((hcheckPasses_iff_recognized ..).1 hc) hn⟩
  · exact ⟨fun hn => absurd ((hcheckPasses_iff_recognized ..).2 hn) (ne_true_of_eq_false hc), fun _ => h⟩

/-- HDEC that completes writes the fields of HB (R115). -/
theorem hdec_fields {s t : State} (h : exec .hdec s = .next t) (herr : t.err = 0#3) :
    t.port = hdecPort s.hb ∧ t.chan = hdecChan s.hb ∧ t.hv = 1#1 := by
  obtain ⟨_, he⟩ | ⟨_, he⟩ := execHdec_cases s <;> rw [exec, he] at h <;> cases h
  · exact ⟨rfl, rfl, rfl⟩
  · exact absurd herr (by simp)

/-- A mask of bits 3:2 finds none in a header byte that HENC writes. -/
theorem hbyte_reserved (p : BitVec 4) (c : BitVec 2) : hbyte p c &&& 0x0C#8 = 0#8 :=
  calc hbyte p c &&& 0x0C#8
    _ = (p ++ 0#2 ++ c) &&& (0#4 ++ BitVec.allOnes 2 ++ 0#2) := rfl
    _ = 0#8 := by rw [BitVec.and_append, BitVec.and_append, BitVec.and_zero, BitVec.and_zero, BitVec.zero_and]; rfl

/-- Settles O13: the fields are read back from the byte (`hbyte_injective`), and `hbyte_hdec` is HDEC and then HENC. -/
theorem headerEncodeInjectiveNotOnto : Obligations.HeaderEncodeInjectiveNotOnto := by
  constructor
  · intro s t s' t' h h'
    cases h
    cases h'
    exact ⟨hbyte_reserved .., hbyte_injective⟩
  · intro s t u h herr hu
    obtain ⟨hport, hchan, -⟩ := hdec_fields h herr
    cases hu
    show hbyte t.port t.chan = _
    rw [hport, hchan, hbyte_hdec]

end Sys2Proof.Machine

/-! PROOFS. What each command reads and writes (10_state.md R47): the writes of a command as data computed from what it
reads, so that a field it does not read cannot change the writes, and a field it does not write is kept. -/

namespace Sys2Proof.Machine

/-! ### The writes of a command -/

/-- What a command that ends writes: STATUS, and the columns of R47's table, `none` for a register left alone. PK is
written from index `pkAt` on, and not at all for the empty list. -/
structure Writes where
  err : BitVec 3 := 0#3
  cat : BitVec 3 := 0#3
  hdr : Option (BitVec 4 × BitVec 2) := none
  hv : Option (BitVec 1) := none
  hb : Option Byte := none
  fv : Option Word := none
  payload : Option (Word × Word × Word × BitVec 16) := none
  pv : Option (BitVec 1) := none
  len : Option (BitVec 6) := none
  pkAt : Nat := 0
  pkBytes : List Byte := []

/-- The state with the writes made. -/
def Writes.apply (w : Writes) (s : State) : State :=
  { s with
    err := w.err, cat := w.cat,
    port := (w.hdr.getD (s.port, s.chan)).1, chan := (w.hdr.getD (s.port, s.chan)).2, hv := w.hv.getD s.hv,
    hb := w.hb.getD s.hb, fv := w.fv.getD s.fv,
    roll := (w.payload.getD (s.roll, s.pitch, s.yaw, s.thrust)).1,
    pitch := (w.payload.getD (s.roll, s.pitch, s.yaw, s.thrust)).2.1,
    yaw := (w.payload.getD (s.roll, s.pitch, s.yaw, s.thrust)).2.2.1,
    thrust := (w.payload.getD (s.roll, s.pitch, s.yaw, s.thrust)).2.2.2,
    pv := w.pv.getD s.pv, len := w.len.getD s.len,
    pk := Memory.writeBytes s.pk (Config.pkBase + w.pkAt) w.pkBytes }

/-- The writes of a command that raises (R13). -/
def Writes.raised (e : CmdError) (c : Category) : Writes := { err := e.code, cat := c.code }

/-- The payload registers that `cmd_fields` reads from a list of bytes (R122). -/
def cmdFieldsOf (bs : List Byte) (e : ByteOrder) : Word × Word × Word × BitVec 16 :=
  (valueOf 32 (bs.take 4) e, valueOf 32 ((bs.drop 4).take 4) e, valueOf 32 ((bs.drop 8).take 4) e,
    valueOf 16 ((bs.drop 12).take 2) e)

/-- R101, R103: the field's bytes, or EncodeError past LEN. -/
def encodeFieldWrites {w : Nat} (n : Nat) (c : Category) (off : Nat) (v : BitVec w) (s : State) : Option Writes :=
  if s.len.toNat < off + n then some (.raised .encodeError c)
  else if off + n ≤ 32 then some { pkAt := off, pkBytes := bytesOf n v s.byteOrder }
  else none

/-- R102, R104: FV, or DecodeError past LEN. -/
def decodeFieldWrites (n : Nat) (c : Category) (off : Nat) (s : State) : Option Writes :=
  if s.len.toNat < off + n then some (.raised .decodeError c)
  else if off + n ≤ 32 then some { fv := some ((valueOf (8 * n) (pkBytes off n s) s.byteOrder).setWidth 32) }
  else none

/-- R123, R131: PK from 0 on, and LEN. -/
def storeBufferWrites (out : List Byte) : Writes := { pkBytes := out, len := some (BitVec.ofNat 6 out.length) }

/-- R115: HDR, or DecodeError for a header that is not recognized. -/
def hdecWrites (s : State) : Writes :=
  if s.hcheckPasses (hdecPort s.hb) (hdecChan s.hb) then { hdr := some (hdecPort s.hb, hdecChan s.hb), hv := some 1#1 }
  else .raised .decodeError .header

/-- R124: the payload registers and PV, or ValidationError for a wrong length. -/
def plddecWrites (s : State) : Writes :=
  if s.len.toNat = 14 then { payload := some (cmdFieldsOf (pkBytes 0 14 s) s.byteOrder), pv := some 1#1 }
  else .raised .validationError .payloadLength

/-- R132, after the header: no payload, a payload, or ValidationError. -/
def remainderWrites (p : BitVec 4) (c : BitVec 2) (s : State) : Writes :=
  if s.kind = 1#1 ∨ s.len.toNat = 1 then { hdr := some (p, c), hv := some 1#1, pv := some 0#1 }
  else if s.len.toNat = 15 then
    { hdr := some (p, c), hv := some 1#1, payload := some (cmdFieldsOf (pkBytes 1 14 s) s.byteOrder), pv := some 1#1 }
  else .raised .validationError .payloadLength

/-- R132: the empty packet, an accepted header with its remainder, or DecodeError. -/
def pktdecWrites (s : State) : Writes :=
  if s.len.toNat = 0 then { hv := some 0#1, pv := some 0#1 }
  else if s.hcheckPasses (hdecPort (s.pkByte 0)) (hdecChan (s.pkByte 0)) then
    remainderWrites (hdecPort (s.pkByte 0)) (hdecChan (s.pkByte 0)) s
  else .raised .decodeError .header

/-- The writes of a command in a state; none where it stops. -/
def writesOf (i : Instr) (s : State) : Option Writes :=
  match i with
  | .nop => some {}
  | .henc => some { hb := some (hbyte s.port s.chan) }
  | .hdec => some (hdecWrites s)
  | .f32enc off => encodeFieldWrites 4 .float32 off s.fv s
  | .f32dec off => decodeFieldWrites 4 .float32 off s
  | .u16enc off => encodeFieldWrites 2 .uint16 off (s.fv.extractLsb' 0 16) s
  | .u16dec off => decodeFieldWrites 2 .uint16 off s
  | .pldenc => some (storeBufferWrites (s.cmdBytes s.byteOrder))
  | .plddec => some (plddecWrites s)
  | .pktenc => some (storeBufferWrites s.packetBytes)
  | .pktdec => some (pktdecWrites s)

/-- The outcome of making some writes, or of stopping. -/
def writeOutcome (s : State) : Option Writes → Host.Outcome State Fault Refusal
  | some w => .next (w.apply s)
  | none => .fault .outsideBuffer

theorem encodeField_eq_writes {w : Nat} (n : Nat) (c : Category) (off : Nat) (v : BitVec w) (s : State) :
    encodeField n c off v s = writeOutcome s (encodeFieldWrites n c off v s) := by
  rw [encodeField_eq, encodeFieldWrites]; split_ifs <;> rfl

theorem decodeField_eq_writes (n : Nat) (c : Category) (off : Nat) (s : State) :
    decodeField n c off s = writeOutcome s (decodeFieldWrites n c off s) := by
  rw [decodeField_eq, decodeFieldWrites]; split_ifs <;> rfl

theorem storeBuffer_eq_writes {out : List Byte} (s : State) (h : out.length ≤ 32) :
    storeBuffer out s = .next ((storeBufferWrites out).apply s) :=
  storeBuffer_next out s h

theorem decodeRemainder_eq_writes (p : BitVec 4) (c : BitVec 2) (s : State) :
    decodeRemainder p c s = .next ((remainderWrites p c s).apply s) := by
  obtain ⟨hnone, h⟩ | ⟨hk, h1, h15, h⟩ | ⟨hk, h15, h⟩ := decodeRemainder_cases p c s <;> rw [h, remainderWrites]
  · rw [if_pos hnone]; rfl
  · rw [if_neg (not_or.2 ⟨hk, h1⟩), if_neg (by omega)]; rfl
  · rw [if_neg (not_or.2 ⟨hk, by omega⟩), if_pos h15]; rfl

/-- Every command makes its writes, and does nothing else. -/
theorem exec_eq_writes (i : Instr) (s : State) : exec i s = writeOutcome s (writesOf i s) := by
  cases i with
  | nop | henc => rfl
  | hdec => obtain ⟨hc, h⟩ | ⟨hc, h⟩ := execHdec_cases s <;> rw [exec, h, writesOf, hdecWrites, hc] <;> rfl
  | f32enc off | u16enc off => exact encodeField_eq_writes ..
  | f32dec off | u16dec off => exact decodeField_eq_writes ..
  | pldenc => exact storeBuffer_eq_writes s ((s.cmdBytes_length _).trans_le (by decide))
  | pktenc => exact storeBuffer_eq_writes s (s.packetBytes_length_le.trans (by decide))
  | plddec =>
    obtain ⟨hl, h⟩ | ⟨hl, h⟩ := execPlddec_cases s <;> rw [exec, h, writesOf, plddecWrites]
    · rw [if_pos hl]; rfl
    · rw [if_neg hl]; rfl
  | pktdec =>
    obtain ⟨h0, h⟩ | ⟨h0, hc, h⟩ | ⟨h0, hc, h⟩ := execPktdec_cases s <;> rw [exec, h, writesOf, pktdecWrites]
    · rw [if_pos h0]; rfl
    · rw [if_neg h0, hc]; rfl
    · rw [if_neg h0, if_pos hc, decodeRemainder_eq_writes]; rfl

theorem exists_writes {i : Instr} {s t : State} (h : exec i s = .next t) :
    ∃ w, writesOf i s = some w ∧ w.apply s = t := by
  rw [exec_eq_writes] at h
  cases hw : writesOf i s with
  | some w => rw [hw] at h; cases h; exact ⟨w, rfl, rfl⟩
  | none => rw [hw] at h; cases h

theorem exec_of_writes {i : Instr} {s : State} {w : Writes} (h : writesOf i s = some w) :
    exec i s = .next (w.apply s) := by
  rw [exec_eq_writes, h]; rfl

/-- A change `f` of the state that leaves a command's writes as they are, and that can as well be made after them,
leaves its outcome as it is. -/
theorem exec_commutes {i : Instr} {s t : State} (f : State → State) (hreads : writesOf i (f s) = writesOf i s)
    (hwrites : ∀ w, writesOf i s = some w → w.apply (f s) = f (w.apply s)) (h : exec i s = .next t) :
    exec i (f s) = .next (f t) := by
  obtain ⟨w, hw, rfl⟩ := exists_writes h
  rw [exec_of_writes (hreads.trans hw), hwrites w hw]

/-! ### The write columns of R47's table -/

/-- The writes stay within the command's row. -/
structure Writes.InRow (w : Writes) (i : Instr) : Prop where
  hdr : i ≠ .hdec → i ≠ .pktdec → w.hdr = none ∧ w.hv = none
  hb : i ≠ .henc → w.hb = none
  fv : (∀ off, i ≠ .f32dec off ∧ i ≠ .u16dec off) → w.fv = none
  payload : i ≠ .plddec → i ≠ .pktdec → w.payload = none ∧ w.pv = none
  len : i ≠ .pldenc → i ≠ .pktenc → w.len = none
  pk : i ≠ .pldenc → i ≠ .pktenc → (∀ off, i ≠ .f32enc off ∧ i ≠ .u16enc off) → w.pkBytes = []

theorem raised_inRow (e : CmdError) (c : Category) (i : Instr) : (Writes.raised e c).InRow i := by
  constructor <;> simp [Writes.raised]

theorem writesOf_inRow {i : Instr} {s : State} {w : Writes} (h : writesOf i s = some w) : w.InRow i := by
  cases i with
  | nop | henc | pldenc | pktenc => cases h; constructor <;> simp [storeBufferWrites]
  | hdec =>
    cases h
    unfold hdecWrites
    split_ifs
    · constructor <;> simp
    · exact raised_inRow ..
  | f32enc off | u16enc off =>
    simp only [writesOf, encodeFieldWrites] at h
    split_ifs at h <;> cases h
    · exact raised_inRow ..
    · constructor <;> simp
  | f32dec off | u16dec off =>
    simp only [writesOf, decodeFieldWrites] at h
    split_ifs at h <;> cases h
    · exact raised_inRow ..
    · constructor <;> simp
  | plddec =>
    cases h
    unfold plddecWrites
    split_ifs
    · constructor <;> simp
    · exact raised_inRow ..
  | pktdec =>
    cases h
    unfold pktdecWrites remainderWrites
    split_ifs
    · constructor <;> simp
    · constructor <;> simp
    · constructor <;> simp
    · exact raised_inRow ..
    · exact raised_inRow ..

/-- Settles O35: the state after a command is the state with its writes made, and they stay within its row. -/
theorem commandsWriteOnlyTheirRow : Obligations.CommandsWriteOnlyTheirRow := by
  intro i s t h
  obtain ⟨w, hw, rfl⟩ := exists_writes h
  obtain ⟨hdr, hb, fv, payload, len, pk⟩ := writesOf_inRow hw
  refine ⟨⟨rfl, rfl, rfl, rfl, rfl, rfl, rfl⟩, fun h1 h2 => ?_, fun h => ?_, fun h => ?_, fun h1 h2 => ?_,
    fun h1 h2 => ?_, fun h1 h2 h3 => ?_⟩
  · obtain ⟨hhdr, hhv⟩ := hdr h1 h2
    simp [Writes.apply, hhdr, hhv]
  · simp [Writes.apply, hb h]
  · simp [Writes.apply, fv h]
  · obtain ⟨hpayload, hpv⟩ := payload h1 h2
    simp [Writes.apply, hpayload, hpv]
  · simp [Writes.apply, len h1 h2]
  · simp [Writes.apply, pk h1 h2 h3, Memory.writeBytes]

/-! ### A register that a command neither reads nor writes (R23, R25, R33, R34) -/

theorem apply_hb {w : Writes} (h : w.hb = none) (s : State) (b : Byte) :
    w.apply { s with hb := b } = { w.apply s with hb := b } := by
  simp [Writes.apply, h]

theorem apply_fv {w : Writes} (h : w.fv = none) (s : State) (v : Word) :
    w.apply { s with fv := v } = { w.apply s with fv := v } := by
  simp [Writes.apply, h]

theorem apply_pk {w : Writes} (h : w.pkBytes = []) (s : State) (m : Memory) :
    w.apply { s with pk := m } = { w.apply s with pk := m } := by
  simp [Writes.apply, h, Memory.writeBytes]

theorem writesOf_hb {i : Instr} (h : i ≠ .hdec) (s : State) (b : Byte) :
    writesOf i { s with hb := b } = writesOf i s := by
  cases i with
  | hdec => contradiction
  | _ => rfl

theorem writesOf_fv {i : Instr} (h : ∀ off, i ≠ .f32enc off ∧ i ≠ .u16enc off) (s : State) (v : Word) :
    writesOf i { s with fv := v } = writesOf i s := by
  cases i with
  | f32enc off | u16enc off => simp at h
  | _ => rfl

theorem writesOf_kind {i : Instr} (henc : i ≠ .pktenc) (hdec : i ≠ .pktdec) (s : State) (k : BitVec 1) :
    writesOf i { s with kind := k } = writesOf i s := by
  cases i with
  | pktenc | pktdec => contradiction
  | _ => rfl

theorem exec_hb {i : Instr} {s t : State} (henc : i ≠ .henc) (hdec : i ≠ .hdec) (h : exec i s = .next t) (b : Byte) :
    exec i { s with hb := b } = .next { t with hb := b } :=
  exec_commutes (fun u => { u with hb := b }) (writesOf_hb hdec s b)
    (fun _ hw => apply_hb ((writesOf_inRow hw).hb henc) s b) h

theorem exec_fv {i : Instr} {s t : State}
    (hi : ∀ off, i ≠ .f32enc off ∧ i ≠ .f32dec off ∧ i ≠ .u16enc off ∧ i ≠ .u16dec off) (h : exec i s = .next t)
    (v : Word) : exec i { s with fv := v } = .next { t with fv := v } := by
  have henc (off) : i ≠ .f32enc off ∧ i ≠ .u16enc off := by obtain ⟨h1, -, h2, -⟩ := hi off; exact ⟨h1, h2⟩
  have hdec (off) : i ≠ .f32dec off ∧ i ≠ .u16dec off := by obtain ⟨-, h1, -, h2⟩ := hi off; exact ⟨h1, h2⟩
  exact exec_commutes (fun u => { u with fv := v }) (writesOf_fv henc s v)
    (fun _ hw => apply_fv ((writesOf_inRow hw).fv hdec) s v) h

/-- Settles O36, from `exec_hb` and `exec_fv`. -/
theorem othersIgnoreHeaderByteAndFieldValue : Obligations.OthersIgnoreHeaderByteAndFieldValue :=
  fun _ _ _ h => ⟨fun b henc hdec => exec_hb henc hdec h b, fun v hi => exec_fv hi h v⟩

/-- Settles O37: no command writes KIND. -/
theorem kindAffectsOnlyPackets : Obligations.KindAffectsOnlyPackets := fun _ s _ k henc hdec =>
  exec_commutes (fun u => { u with kind := k }) (writesOf_kind henc hdec s k) (fun _ _ => rfl)

/-- Settles O38: no command writes ENDIAN, and these three handle no field of more than one byte. -/
theorem endianDoesNotAffectHeader : Obligations.EndianDoesNotAffectHeader := by
  intro i s t e hi
  refine exec_commutes (fun u => { u with endian := e }) ?_ (fun _ _ => rfl)
  obtain rfl | rfl | rfl := hi <;> rfl

/-! ### The recognized-value sets (R39, R40) -/

theorem hcheckPasses_of_unchecked {s : State} (h : s.hchk ≠ 1#1) (p : BitVec 4) (c : BitVec 2) :
    s.hcheckPasses p c = true := by
  rw [State.hcheckPasses, (BitVec.eq_zero_or_eq_one s.hchk).resolve_right h]; rfl

theorem writesOf_sets {i : Instr} {s : State} (h : (i ≠ .hdec ∧ i ≠ .pktdec) ∨ s.hchk ≠ 1#1) (p : BitVec 16)
    (c : BitVec 4) : writesOf i { s with portOk := p, chanOk := c } = writesOf i s := by
  cases i with
  | hdec =>
    have hchk : s.hchk ≠ 1#1 := by simpa using h
    have hchk' : ({ s with portOk := p, chanOk := c } : State).hchk ≠ 1#1 := hchk
    simp only [writesOf, hdecWrites, hcheckPasses_of_unchecked hchk, hcheckPasses_of_unchecked hchk', if_true]
  | pktdec =>
    have hchk : s.hchk ≠ 1#1 := by simpa using h
    have hchk' : ({ s with portOk := p, chanOk := c } : State).hchk ≠ 1#1 := hchk
    simp only [writesOf, pktdecWrites, hcheckPasses_of_unchecked hchk, hcheckPasses_of_unchecked hchk', if_true]
    rfl
  | _ => rfl

/-- Settles O39: no command writes the sets. -/
theorem recognizedSetsReadOnlyWhenChecked : Obligations.RecognizedSetsReadOnlyWhenChecked := fun _ _ _ p c hi =>
  exec_commutes (fun u => { u with portOk := p, chanOk := c }) (writesOf_sets hi p c) (fun _ _ => rfl)

/-! ### The presence bits (R43) -/

theorem writesOf_presence {i : Instr} (hi : i ≠ .pktenc) (s : State) (h p : BitVec 1) :
    writesOf i { s with hv := h, pv := p } = writesOf i s := by
  cases i with
  | pktenc => contradiction
  | _ => rfl

/-- A register after a write of it, or after none. -/
theorem getD_eq_or {α : Type} (o : Option α) (a b : α) : o.getD a = a ∨ o.getD a = o.getD b := by
  cases o with
  | none => exact .inl rfl
  | some x => exact .inr rfl

/-- Settles O40: each bit is written, the same under any old bits, or left as it was given. -/
theorem onlyPktencReadsPresence : Obligations.OnlyPktencReadsPresence := by
  intro i s t h p hi ht
  obtain ⟨w, hw, rfl⟩ := exists_writes ht
  exact ⟨w.hv.getD h, w.pv.getD p, exec_of_writes ((writesOf_presence hi s h p).trans hw),
    getD_eq_or w.hv h s.hv, getD_eq_or w.pv p s.pv⟩

/-! ### The bytes of PK that a decode command reads (R38, R102, R110) -/

theorem pkBytes_congr {s u : State} {a b n : Nat} (h : ∀ k < n, u.pkByte (b + k) = s.pkByte (a + k)) :
    pkBytes b n u = pkBytes a n s :=
  List.map_congr_left fun k hk => h k (List.mem_range.1 hk)

/-- The four kinds of command that decode from PK. -/
def DecodesPk (i : Instr) : Prop := (∃ off, i = .f32dec off ∨ i = .u16dec off) ∨ i = .plddec ∨ i = .pktdec

/-- A command that decodes from PK leaves it. -/
theorem exec_pk {i : Instr} {s t : State} {m : Memory} (hi : DecodesPk i)
    (hreads : writesOf i { s with pk := m } = writesOf i s) (h : exec i s = .next t) :
    exec i { s with pk := m } = .next { t with pk := m } := by
  refine exec_commutes (fun u => { u with pk := m }) hreads (fun w hw => apply_pk ?_ s m) h
  obtain ⟨off, rfl | rfl⟩ | rfl | rfl := hi <;> exact (writesOf_inRow hw).pk nofun nofun fun _ => ⟨nofun, nofun⟩

section
variable {s : State} {m : Memory}

theorem decodeFieldWrites_pk {n off : Nat} (c : Category)
    (h : off + n ≤ s.len.toNat → pkBytes off n { s with pk := m } = pkBytes off n s) :
    decodeFieldWrites n c off { s with pk := m } = decodeFieldWrites n c off s := by
  unfold decodeFieldWrites
  by_cases hlen : s.len.toNat < off + n
  · rw [if_pos hlen, if_pos hlen]
  · rw [if_neg hlen, if_neg hlen, h (by omega)]; rfl

theorem plddecWrites_pk (h : s.len.toNat = 14 → pkBytes 0 14 { s with pk := m } = pkBytes 0 14 s) :
    plddecWrites { s with pk := m } = plddecWrites s := by
  unfold plddecWrites
  by_cases hlen : s.len.toNat = 14
  · rw [if_pos hlen, if_pos hlen, h hlen]; rfl
  · rw [if_neg hlen, if_neg hlen]

theorem remainderWrites_pk (p : BitVec 4) (c : BitVec 2)
    (h : s.len.toNat = 15 → pkBytes 1 14 { s with pk := m } = pkBytes 1 14 s) :
    remainderWrites p c { s with pk := m } = remainderWrites p c s := by
  unfold remainderWrites
  by_cases hlen : s.len.toNat = 15
  · rw [h hlen]; rfl
  · rw [if_neg hlen, if_neg hlen]

/-- PKTDEC reads the fields of the header byte and, of a packet of 15 bytes, the other 14. -/
theorem pktdecWrites_pk
    (hport : s.len.toNat ≠ 0 → hdecPort (({ s with pk := m } : State).pkByte 0) = hdecPort (s.pkByte 0))
    (hchan : s.len.toNat ≠ 0 → hdecChan (({ s with pk := m } : State).pkByte 0) = hdecChan (s.pkByte 0))
    (hrest : s.len.toNat = 15 → pkBytes 1 14 { s with pk := m } = pkBytes 1 14 s) :
    pktdecWrites { s with pk := m } = pktdecWrites s := by
  unfold pktdecWrites
  by_cases hlen : s.len.toNat = 0
  · rw [if_pos hlen, if_pos hlen]
  · rw [if_neg hlen, if_neg hlen, hport hlen, hchan hlen, remainderWrites_pk _ _ hrest]; rfl

end

/-- Settles O41: each decode command reads inside `PK[0 .. LEN-1]`, after it has checked LEN. -/
theorem decodersIgnoreBytesBeyondLen : Obligations.DecodersIgnoreBytesBeyondLen := by
  intro i s t m hi hpk
  have hbytes (a n : Nat) (h : a + n ≤ s.len.toNat) : pkBytes a n { s with pk := m } = pkBytes a n s :=
    pkBytes_congr fun k hk => hpk (a + k) (by omega)
  refine exec_pk hi ?_
  obtain ⟨off, rfl | rfl⟩ | rfl | rfl := hi
  · exact decodeFieldWrites_pk .float32 (hbytes off 4)
  · exact decodeFieldWrites_pk .uint16 (hbytes off 2)
  · exact congrArg some (plddecWrites_pk fun h => hbytes 0 14 (by omega))
  · exact congrArg some (pktdecWrites_pk (fun h => congrArg hdecPort (hpk 0 (by omega)))
      (fun h => congrArg hdecChan (hpk 0 (by omega))) fun h => hbytes 1 14 (by omega))

/-- Settles O11: both commands read the header byte through its two fields. -/
theorem reservedHeaderBitsIgnored : Obligations.ReservedHeaderBitsIgnored := by
  refine ⟨fun s t b hb => ?_, fun s t m h0 hrest => ?_⟩
  · obtain ⟨hport, hchan⟩ := hdec_eq_of_mask hb
    refine exec_commutes (fun u => { u with hb := b }) ?_
      fun w hw => apply_hb ((writesOf_inRow hw).hb nofun) s b
    simp only [writesOf, hdecWrites, hport, hchan]
    rfl
  · obtain ⟨hport, hchan⟩ := hdec_eq_of_mask h0
    refine exec_pk (.inr (.inr rfl)) (congrArg some (pktdecWrites_pk (fun _ => hport) (fun _ => hchan) fun _ => ?_))
    exact pkBytes_congr fun k _ => hrest (1 + k) (by omega)

end Sys2Proof.Machine

/-! PROOFS. The codecs as inverses: value_of and bytes_of (00_scope.md R12), and a field encode with the field decode
after it, in either byte order (40_field_codec.md R105, R106). -/

namespace Sys2Proof.Machine

/-! ### Lists of bytes and numbers (R12) -/

theorem bytesOf_be {w : Nat} (n : Nat) (v : BitVec w) : bytesOf n v .be = (bytesOf n v .le).reverse := by
  apply List.ext_getElem
  · simp
  · intro k _ _
    rw [List.getElem_reverse, bytesOf_getElem, bytesOf_getElem, bytesOf_length]; rfl

/-- Byte `k` of a number is the byte that the number was made with. -/
theorem natLe_byte : ∀ (bs : List Byte) (k : Nat) (h : k < bs.length), natLe bs / 256 ^ k % 256 = bs[k].toNat
  | b :: bs, 0, _ => by
    have hb := b.isLt
    rw [natLe, pow_zero, Nat.div_one, List.getElem_cons_zero]; omega
  | b :: bs, k + 1, h => by
    have hb := b.isLt
    have htail : (b.toNat + 256 * natLe bs) / 256 = natLe bs := by omega
    rw [natLe, pow_succ', ← Nat.div_div_eq_div_mul, htail, List.getElem_cons_succ]
    exact natLe_byte bs k (by simpa using h)

/-- Byte `k` of the little-endian value of a list is the list's byte `k`. -/
theorem byteAt_valueLe {w : Nat} (bs : List Byte) (k : Nat) (h : k < bs.length) (hw : 8 * bs.length ≤ w) :
    (valueLe w bs).extractLsb' (8 * k) 8 = bs[k] := by
  rw [← BitVec.toNat_inj, ← natLe_byte bs k h, ← valueLe_toNat w bs hw, BitVec.extractLsb'_toNat,
    Nat.shiftRight_eq_div_pow, pow_mul]; rfl

/-- Values of `n` bytes that agree in every byte are equal. -/
theorem eq_of_bytes {n : Nat} {v v' : BitVec (8 * n)}
    (h : ∀ k < n, v.extractLsb' (8 * k) 8 = v'.extractLsb' (8 * k) 8) :
    v = v' := by
  apply BitVec.eq_of_getLsbD_eq
  intro i hi
  have hbit := congrArg (fun b : Byte => b.getLsbD (i % 8)) (h (i / 8) (by omega))
  have hpos : 8 * (i / 8) + i % 8 = i := Nat.div_add_mod i 8
  simpa [BitVec.getLsbD_extractLsb', Nat.mod_lt, hpos] using hbit

theorem valueLe_bytesOf (n : Nat) (v : BitVec (8 * n)) : valueLe (8 * n) (bytesOf n v .le) = v := by
  refine eq_of_bytes fun k hk => ?_
  rw [byteAt_valueLe _ k (by simpa using hk) (by simp), bytesOf_getElem]; rfl

/-- The big-endian bytes are the little-endian ones reversed, and so is their value. -/
theorem valueOf_bytesOf (n : Nat) (v : BitVec (8 * n)) (e : ByteOrder) : valueOf (8 * n) (bytesOf n v e) e = v := by
  cases e with
  | le => exact valueLe_bytesOf n v
  | be => rw [valueOf, bytesOf_be, List.reverse_reverse, valueLe_bytesOf]

/-- Settles O18. -/
theorem valueOfBytesOf : Obligations.ValueOfBytesOf := valueOf_bytesOf

/-- R106: read in the other byte order, a value has its bytes reversed. -/
theorem byteAt_valueOf_other {n : Nat} (v : BitVec (8 * n)) {e e' : ByteOrder} (he : e ≠ e') (k : Nat) (hk : k < n) :
    (valueOf (8 * n) (bytesOf n v e) e').extractLsb' (8 * k) 8 = v.extractLsb' (8 * (n - 1 - k)) 8 := by
  have hval : valueOf (8 * n) (bytesOf n v e) e' = valueLe (8 * n) (bytesOf n v .be) := by
    cases e <;> cases e'
    · contradiction
    · rw [valueOf, bytesOf_be]
    · rfl
    · contradiction
  rw [hval, byteAt_valueLe _ k (by simpa using hk) (by simp), bytesOf_getElem]; rfl

/-! ### A field stored, and loaded again (R105, R106) -/

/-- A field encode that completes leaves LEN and ENDIAN, and the value's bytes at its offset. -/
theorem encodeField_stored {w n off : Nat} {c : Category} {v : BitVec w} {s t : State} (hinv : s.Inv)
    (h : encodeField n c off v s = .next t) (herr : t.err = 0#3) :
    off + n ≤ t.len.toNat ∧ t.len.toNat ≤ 32 ∧ t.endian = s.endian ∧ pkBytes off n t = bytesOf n v s.byteOrder := by
  obtain ⟨hwf, hlen, _⟩ := hinv
  obtain ⟨_, he⟩ | ⟨hfit, _, t', hmem, he⟩ | ⟨_, _, he⟩ := encodeField_cases n c off v s <;> rw [he] at h
  · cases h
    exact absurd herr CmdError.encodeError.code_ne_zero
  · obtain ⟨inside, -⟩ := memWrite_pkByte hmem hwf
    obtain ⟨-, rfl⟩ := (memWrite_eq_some ..).1 hmem
    cases h
    refine ⟨hfit, hlen, rfl, List.ext_getElem (by simp) fun k hk _ => ?_⟩
    have hkn : k < n := by simpa using hk
    rw [← inside k (by simpa using hkn)]
    simp [pkBytes]
  · cases h

/-- A field decode loads the value of the field's bytes. -/
theorem decodeField_loads {n off : Nat} {c : Category} {s : State} {bs : List Byte} (h : off + n ≤ s.len.toNat)
    (h32 : s.len.toNat ≤ 32) (hbs : pkBytes off n s = bs) :
    decodeField n c off s = .next { s with
      fv := (valueOf (8 * n) bs s.byteOrder).setWidth 32, err := 0#3, cat := 0#3 } := by
  rw [decodeField_eq, if_neg (by omega), if_pos (by omega), ← hbs]; rfl

theorem byteOrder_congr {s u : State} (h : u.endian = s.endian) : u.byteOrder = s.byteOrder := by
  rw [State.byteOrder, State.byteOrder, h]

theorem byteOrder_ne {s u : State} (h : u.endian ≠ s.endian) : s.byteOrder ≠ u.byteOrder := by
  obtain ⟨hs, hs'⟩ | ⟨hs, hs'⟩ := endian_cases s <;> obtain ⟨hu, hu'⟩ | ⟨hu, hu'⟩ := endian_cases u <;>
    simp_all

/-- A decode of the field just encoded, in any byte order. -/
theorem decodeField_after_encodeField {w n off : Nat} {c c' : Category} {v : BitVec w} {s t u : State} (hinv : s.Inv)
    (h : encodeField n c off v s = .next t) (herr : t.err = 0#3) (hlen : u.len = t.len)
    (hpk : ∀ k < n, u.pkByte (off + k) = t.pkByte (off + k)) :
    t.endian = s.endian ∧ decodeField n c' off u = .next { u with
      fv := (valueOf (8 * n) (bytesOf n v s.byteOrder) u.byteOrder).setWidth 32, err := 0#3, cat := 0#3 } := by
  obtain ⟨hfit, h32, hend, hbytes⟩ := encodeField_stored hinv h herr
  exact ⟨hend, decodeField_loads (by rwa [hlen]) (by rwa [hlen]) ((pkBytes_congr hpk).trans hbytes)⟩

theorem decodeField_restores {n off : Nat} {c c' : Category} {v : BitVec (8 * n)} {s t u : State} (hinv : s.Inv)
    (h : encodeField n c off v s = .next t) (herr : t.err = 0#3) (hlen : u.len = t.len) (hend : u.endian = t.endian)
    (hpk : ∀ k < n, u.pkByte (off + k) = t.pkByte (off + k)) :
    decodeField n c' off u = .next { u with fv := v.setWidth 32, err := 0#3, cat := 0#3 } := by
  obtain ⟨hend', hdec⟩ := decodeField_after_encodeField (c' := c') hinv h herr hlen hpk
  rw [hdec, byteOrder_congr (hend.trans hend'), valueOf_bytesOf]

/-- Settles O19: a float32 field has 4 bytes, a uint16 field 2. -/
theorem fieldRoundTrip : Obligations.FieldRoundTrip := by
  intro off s t u hinv herr hlen hend
  refine ⟨fun h hpk => ?_, fun h hpk => decodeField_restores (n := 2) hinv h herr hlen hend hpk⟩
  have hdec := decodeField_restores (n := 4) (c' := .float32) hinv h herr hlen hend hpk
  rwa [BitVec.setWidth_eq] at hdec

theorem decodeField_reverses {n off : Nat} {c c' : Category} {v : BitVec (8 * n)} {s t u : State} (hinv : s.Inv)
    (h : encodeField n c off v s = .next t) (herr : t.err = 0#3) (hlen : u.len = t.len) (hend : u.endian ≠ t.endian)
    (hpk : ∀ k < n, u.pkByte (off + k) = t.pkByte (off + k)) :
    ∃ x : BitVec (8 * n),
      decodeField n c' off u = .next { u with fv := x.setWidth 32, err := 0#3, cat := 0#3 } ∧
      ∀ k < n, x.extractLsb' (8 * k) 8 = v.extractLsb' (8 * (n - 1 - k)) 8 := by
  obtain ⟨hend', hdec⟩ := decodeField_after_encodeField (c' := c') hinv h herr hlen hpk
  exact ⟨_, hdec, byteAt_valueOf_other v (byteOrder_ne (hend' ▸ hend))⟩

theorem extractLsb'_high_setWidth (x : BitVec 16) : (x.setWidth 32).extractLsb' 16 16 = 0#16 := by
  have hx := x.isLt
  rw [← BitVec.toNat_inj, BitVec.extractLsb'_toNat, BitVec.toNat_setWidth_of_le (by decide),
    Nat.shiftRight_eq_div_pow, Nat.div_eq_of_lt hx]; rfl

/-- Settles O20: the bytes of the two orders are each other's reverse. -/
theorem otherByteOrderReversesField : Obligations.OtherByteOrderReversesField := by
  intro off s t u hinv herr hlen hend
  constructor
  · intro h hpk
    obtain ⟨x, hdec, hbyte⟩ := decodeField_reverses (n := 4) (c' := .float32) hinv h herr hlen hend hpk
    rw [BitVec.setWidth_eq] at hdec
    exact ⟨x, hdec, hbyte⟩
  · intro h hpk
    obtain ⟨x, hdec, hbyte⟩ := decodeField_reverses (n := 2) (c' := .uint16) hinv h herr hlen hend hpk
    refine ⟨x.setWidth 32, hdec, ?_, ?_, extractLsb'_high_setWidth x⟩
    · rw [BitVec.extractLsb'_setWidth_of_le (by decide)]
      exact (hbyte 0 (by decide)).trans (BitVec.extractLsb'_extractLsb'_of_le (by decide))
    · rw [BitVec.extractLsb'_setWidth_of_le (by decide)]
      exact (hbyte 1 (by decide)).trans (BitVec.extractLsb'_extractLsb'_of_le (by decide))

end Sys2Proof.Machine

/-! PROOFS. The payload and the packet codec as inverses (42_payload.md R125, R126; 43_packet.md R134 to R136), and what
an encoder leaves of the old buffer (R123, R131). -/

namespace Sys2Proof.Machine

/-! ### A buffer stored, and read again -/

/-- After a buffer is stored, LEN is its length and PK begins with it. -/
theorem storeBuffer_buffer {out : List Byte} {s t : State} (hinv : s.Inv) (hlen : out.length ≤ 32)
    (h : storeBuffer out s = .next t) :
    t = { s with pk := t.pk, len := t.len, err := 0#3, cat := 0#3 } ∧ t.len.toNat = out.length ∧
      ∀ (k : Nat) (hk : k < out.length), t.pkByte k = out[k] := by
  obtain ⟨hwf, _⟩ := hinv
  obtain ⟨t', h', hframe, inside, -⟩ := storeBuffer_stores hwf hlen
  obtain rfl := Host.Outcome.next.inj (h.symm.trans h')
  have hn : t.len = BitVec.ofNat 6 out.length := by rw [hframe]
  refine ⟨by rw [hn]; exact hframe, ?_, inside⟩
  rw [hn, BitVec.toNat_ofNat, Nat.mod_eq_of_lt (by omega)]

theorem pldenc_buffer {s t : State} (hinv : s.Inv) (h : exec .pldenc s = .next t) :
    t = { s with pk := t.pk, len := t.len, err := 0#3, cat := 0#3 } ∧
      t.len.toNat = (s.cmdBytes s.byteOrder).length ∧
      ∀ (k : Nat) (hk : k < (s.cmdBytes s.byteOrder).length), t.pkByte k = (s.cmdBytes s.byteOrder)[k] :=
  storeBuffer_buffer hinv ((s.cmdBytes_length _).trans_le (by decide)) h

theorem pktenc_buffer {s t : State} (hinv : s.Inv) (h : exec .pktenc s = .next t) :
    t = { s with pk := t.pk, len := t.len, err := 0#3, cat := 0#3 } ∧ t.len.toNat = s.packetBytes.length ∧
      ∀ (k : Nat) (hk : k < s.packetBytes.length), t.pkByte k = s.packetBytes[k] :=
  storeBuffer_buffer hinv (s.packetBytes_length_le.trans (by decide)) h

/-- Two stores of the same bytes leave the same buffer. -/
theorem storeBuffer_unique {out : List Byte} {s t s' t' : State} (hinv : s.Inv) (hinv' : s'.Inv)
    (hlen : out.length ≤ 32) (h : storeBuffer out s = .next t) (h' : storeBuffer out s' = .next t') :
    t'.len = t.len ∧ ∀ k < t.len.toNat, t'.pkByte k = t.pkByte k := by
  obtain ⟨-, hn, hbytes⟩ := storeBuffer_buffer hinv hlen h
  obtain ⟨-, hn', hbytes'⟩ := storeBuffer_buffer hinv' hlen h'
  refine ⟨BitVec.eq_of_toNat_eq (hn'.trans hn.symm), fun k hk => ?_⟩
  rw [hbytes k (hn ▸ hk), hbytes' k (hn ▸ hk)]

/-- Settles O42: neither command's bytes depend on PK or LEN. -/
theorem encodersIgnoreOldBuffer : Obligations.EncodersIgnoreOldBuffer := by
  intro i s t s' t' hi hinv hinv' hs h h'
  obtain rfl | rfl := hi
  · have hout : s'.cmdBytes s'.byteOrder = s.cmdBytes s.byteOrder := congrArg (fun u => u.cmdBytes u.byteOrder) hs
    rw [exec, execPldenc, hout] at h'
    exact storeBuffer_unique hinv hinv' ((s.cmdBytes_length _).trans_le (by decide)) h h'
  · have hout : s'.packetBytes = s.packetBytes := congrArg (fun u => u.packetBytes) hs
    rw [exec, execPktenc, hout] at h'
    exact storeBuffer_unique hinv hinv' (s.packetBytes_length_le.trans (by decide)) h h'

/-- The bytes that MemRead returns, where they are known one by one. -/
theorem pkBytes_eq_of_getElem {u : State} {a n : Nat} {bs : List Byte} (hlen : bs.length = n)
    (h : ∀ (k : Nat) (hk : k < bs.length), u.pkByte (a + k) = bs[k]) : pkBytes a n u = bs := by
  subst hlen
  refine List.ext_getElem (pkBytes_length ..) fun k _ hk => ?_
  rw [← h k hk]
  simp [pkBytes]

/-! ### The commander payload (R125, R126) -/

/-- R121 and R122 are inverses. -/
theorem setCmdFields_cmdBytes (s u : State) (e : ByteOrder) :
    u.setCmdFields (s.cmdBytes e) e = u.setPayload s.roll s.pitch s.yaw s.thrust := by
  have hword (v : Word) : valueOf 32 (bytesOf 4 v e) e = v := valueOf_bytesOf 4 v e
  have hhalf : valueOf 16 (bytesOf 2 s.thrust e) e = s.thrust := valueOf_bytesOf 2 s.thrust e
  calc u.setCmdFields (s.cmdBytes e) e
    _ = u.setPayload (valueOf 32 (bytesOf 4 s.roll e) e) (valueOf 32 (bytesOf 4 s.pitch e) e)
          (valueOf 32 (bytesOf 4 s.yaw e) e) (valueOf 16 (bytesOf 2 s.thrust e) e) := rfl
    _ = u.setPayload s.roll s.pitch s.yaw s.thrust := by rw [hword, hword, hword, hhalf]

/-- Settles O24: PLDDEC reads the bytes that PLDENC stored. -/
theorem payloadRoundTrip : Obligations.PayloadRoundTrip := by
  intro s t u hinv h hlen hend hpk
  obtain ⟨hframe, hn, hbytes⟩ := pldenc_buffer hinv h
  have hcmd : (s.cmdBytes s.byteOrder).length = 14 := s.cmdBytes_length s.byteOrder
  have hend' : u.endian = s.endian := hend.trans (by rw [hframe])
  have hread : pkBytes 0 14 u = s.cmdBytes s.byteOrder :=
    pkBytes_eq_of_getElem hcmd fun k hk => by rw [Nat.zero_add, hpk k (by omega), hbytes k hk]
  obtain ⟨_, hexec⟩ | ⟨hne, _⟩ := execPlddec_cases u
  · rw [exec, hexec, hread, byteOrder_congr hend', setCmdFields_cmdBytes]; rfl
  · exact absurd (by rw [hlen, hn, hcmd]) hne

/-- Settles O23, from the wrong length of O22. -/
theorem thirteenOrFifteenBytesRejected : Obligations.ThirteenOrFifteenBytesRejected := by
  intro s h
  have hne : s.len ≠ 14#6 := by obtain h | h := h <;> rw [h] <;> decide
  exact ⟨_, (plddecLoadsOrRaises.2 s).2 hne, rfl, rfl, rfl, rfl, rfl, rfl, rfl⟩

/-! ### The packet (R134, R135) -/

theorem packetBytes_of_header {s : State} (hv : s.hv = 1#1) :
    s.packetBytes = hbyte s.port s.chan :: s.payloadBytes := by
  simp [State.packetBytes, State.headerBytes, hv]

theorem packetBytes_of_no_header {s : State} (hv : s.hv = 0#1) : s.packetBytes = s.payloadBytes := by
  simp [State.packetBytes, State.headerBytes, hv]

theorem payloadBytes_of_payload {s : State} (hk : s.kind = 0#1) (hp : s.pv = 1#1) :
    s.payloadBytes = s.cmdBytes s.byteOrder := if_pos ⟨hk, hp⟩

theorem payloadBytes_of_no_payload {s : State} (h : s.kind = 1#1 ∨ s.pv = 0#1) : s.payloadBytes = [] := by
  refine if_neg fun ⟨hk, hp⟩ => ?_
  obtain h | h := h
  · simp [hk] at h
  · simp [hp] at h

theorem execPktenc_of_nothing {s : State} (hv : s.hv = 0#1) (hno : s.kind = 1#1 ∨ s.pv = 0#1) :
    execPktenc s = .next { s with len := 0#6, err := 0#3, cat := 0#3 } := by
  rw [execPktenc, packetBytes_of_no_header hv, payloadBytes_of_no_payload hno]; rfl

/-- Settles O28: after the empty packet is decoded there is nothing to encode. -/
theorem emptyPacketRoundTrip : Obligations.EmptyPacketRoundTrip := by
  intro s h
  refine ⟨_, execPktdec_of_empty h, rfl, ?_⟩
  rw [exec, execPktenc_of_nothing rfl (.inr rfl), h]

/-- A packet stored by PKTENC as a decoding state finds it: the same LEN, CTRL and bytes. -/
structure Finds (s u : State) : Prop where
  len : u.len.toNat = s.packetBytes.length
  endian : u.endian = s.endian
  kind : u.kind = s.kind
  byte : ∀ (k : Nat) (hk : k < s.packetBytes.length), u.pkByte k = s.packetBytes[k]

theorem finds_of_pktenc {s t u : State} (hinv : s.Inv) (h : exec .pktenc s = .next t) (hlen : u.len = t.len)
    (hend : u.endian = t.endian) (hkind : u.kind = t.kind) (hpk : ∀ k < t.len.toNat, u.pkByte k = t.pkByte k) :
    Finds s u := by
  obtain ⟨hframe, hn, hbytes⟩ := pktenc_buffer hinv h
  exact ⟨by rw [hlen, hn], hend.trans (by rw [hframe]), hkind.trans (by rw [hframe]),
    fun k hk => (hpk k (hn ▸ hk)).trans (hbytes k hk)⟩

/-- With a header, `PK[0]` is the header byte (R131). -/
theorem Finds.pkNat_of_header {s u : State} (h : Finds s u) (hv : s.hv = 1#1) :
    u.pkNat 0 = 16 * s.port.toNat + s.chan.toNat := by
  have hlen : 0 < s.packetBytes.length := by rw [packetBytes_of_header hv]; exact Nat.succ_pos _
  have h0 := h.byte 0 hlen
  simp only [packetBytes_of_header hv, List.getElem_cons_zero] at h0
  rw [State.pkNat, h0, hbyte_toNat]

theorem Finds.len_ne_zero_of_header {s u : State} (h : Finds s u) (hv : s.hv = 1#1) : u.len ≠ 0#6 := by
  refine mt (len_toNat_eq_iff u (by decide)).2 ?_
  rw [h.len, packetBytes_of_header hv]
  exact Nat.succ_ne_zero _

/-- The Port and the Channel of the header byte, as PKTDEC takes them from its number. -/
theorem ofNat_header_port (p : BitVec 4) (c : BitVec 2) : BitVec.ofNat 4 ((16 * p.toNat + c.toNat) / 16) = p := by
  rw [← hbyte_toNat, ← hdecPort_eq_ofNat, hdecPort_hbyte]

theorem ofNat_header_chan (p : BitVec 4) (c : BitVec 2) : BitVec.ofNat 2 ((16 * p.toNat + c.toNat) % 4) = c := by
  rw [← hbyte_toNat, ← hdecChan_eq_ofNat, hdecChan_hbyte]

/-- With an accepted header, PKTDEC comes to the remainder with the Port and the Channel that were encoded. -/
theorem Finds.execPktdec_of_accepted {s u : State} (h : Finds s u) (hv : s.hv = 1#1)
    (hacc : u.HeaderAccepted (16 * s.port.toNat + s.chan.toNat)) :
    execPktdec u = decodeRemainder s.port s.chan u := by
  rw [Machine.execPktdec_of_accepted (h.len_ne_zero_of_header hv) (h.pkNat_of_header hv) hacc, ofNat_header_port,
    ofNat_header_chan]

theorem Finds.pktdec_both {s u : State} (h : Finds s u) (hk : s.kind = 0#1) (hv : s.hv = 1#1) (hp : s.pv = 1#1)
    (hacc : u.HeaderAccepted (16 * s.port.toNat + s.chan.toNat)) : execPktdec u = .next { u with
      port := s.port, chan := s.chan, hv := 1#1, roll := s.roll, pitch := s.pitch, yaw := s.yaw, thrust := s.thrust,
      pv := 1#1, err := 0#3, cat := 0#3 } := by
  have hpacket : s.packetBytes = hbyte s.port s.chan :: s.cmdBytes s.byteOrder := by
    rw [packetBytes_of_header hv, payloadBytes_of_payload hk hp]
  have hcmd : (s.cmdBytes s.byteOrder).length = 14 := s.cmdBytes_length s.byteOrder
  have hlen : u.len.toNat = 15 := by rw [h.len, hpacket, List.length_cons, hcmd]
  have hread : pkBytes 1 14 u = s.cmdBytes s.byteOrder := by
    refine pkBytes_eq_of_getElem hcmd fun k hk => ?_
    have hbyte := h.byte (k + 1) (by rw [hpacket]; exact Nat.succ_lt_succ hk)
    simp only [hpacket, List.getElem_cons_succ] at hbyte
    rw [Nat.add_comm, hbyte]
  rw [h.execPktdec_of_accepted hv hacc]
  obtain ⟨hnone, _⟩ | ⟨_, _, hne, _⟩ | ⟨_, _, hexec⟩ := decodeRemainder_cases s.port s.chan u
  · rw [h.kind, hk, hlen] at hnone
    exact absurd hnone (by decide)
  · omega
  · rw [hexec, hread, byteOrder_congr h.endian, setCmdFields_cmdBytes]; rfl

theorem Finds.pktdec_header {s u : State} (h : Finds s u) (hv : s.hv = 1#1) (hno : s.kind = 1#1 ∨ s.pv = 0#1)
    (hacc : u.HeaderAccepted (16 * s.port.toNat + s.chan.toNat)) : execPktdec u = .next { u with
      port := s.port, chan := s.chan, hv := 1#1, pv := 0#1, err := 0#3, cat := 0#3 } := by
  have hlen : u.len = 1#6 := (len_toNat_eq_iff u (by decide)).1
    (by rw [h.len, packetBytes_of_header hv, payloadBytes_of_no_payload hno]; rfl)
  rw [h.execPktdec_of_accepted hv hacc, decodeRemainder_of_no_payload _ _ (.inr hlen)]

theorem Finds.pktdec_nothing {s u : State} (h : Finds s u) (hv : s.hv = 0#1) (hno : s.kind = 1#1 ∨ s.pv = 0#1) :
    execPktdec u = .next { u with hv := 0#1, pv := 0#1, err := 0#3, cat := 0#3 } :=
  execPktdec_of_empty ((len_toNat_eq_iff u (by decide)).1
    (by rw [h.len, packetBytes_of_no_header hv, payloadBytes_of_no_payload hno]; rfl))

/-- A payload alone is read as a header, its first byte, and a remainder of 13 bytes. -/
theorem Finds.pktdec_payload_alone {s u : State} (h : Finds s u) (hv : s.hv = 0#1) (hk : s.kind = 0#1)
    (hp : s.pv = 1#1) :
    (u.HeaderAccepted (s.payloadWireByte 0) → execPktdec u = .next { u with err := 1#3, cat := 2#3 }) ∧
    (¬ u.HeaderAccepted (s.payloadWireByte 0) → execPktdec u = .next { u with err := 2#3, cat := 1#3 }) := by
  have hpacket : s.packetBytes = s.cmdBytes s.byteOrder := by
    rw [packetBytes_of_no_header hv, payloadBytes_of_payload hk hp]
  have hcmd : s.packetBytes.length = 14 := by rw [hpacket]; exact s.cmdBytes_length s.byteOrder
  have hlen : u.len = 14#6 := (len_toNat_eq_iff u (by decide)).1 (h.len.trans hcmd)
  have h0 : u.len ≠ 0#6 := by rw [hlen]; decide
  have hbyte : u.pkNat 0 = s.payloadWireByte 0 := by
    rw [State.pkNat, h.byte 0 (by omega), ← cmdBytes_getElem_toNat s 0 (by simp)]
    simp only [hpacket]
  refine ⟨fun hacc => ?_, execPktdec_of_rejected h0 hbyte⟩
  rw [Machine.execPktdec_of_accepted h0 hbyte hacc]
  exact decodeRemainder_of_wrong_length _ _ (h.kind.trans hk) (by rw [hlen]; decide) (by rw [hlen]; decide)

/-- Settles O29, case by case from `Finds`. -/
theorem packetRoundTrip : Obligations.PacketRoundTrip := by
  intro s t u hinv h hlen hend _ hkind hpk
  have hfinds : Finds s u := finds_of_pktenc hinv h hlen hend hkind hpk
  refine ⟨fun hk hv hp => ⟨?_, hfinds.pktdec_both hk hv hp⟩, hfinds.pktdec_header,
    fun hv => execPktdec_of_rejected (hfinds.len_ne_zero_of_header hv) (hfinds.pkNat_of_header hv),
    hfinds.pktdec_nothing, hfinds.pktdec_payload_alone⟩
  refine (len_toNat_eq_iff t (by decide)).1 ?_
  rw [← hlen, hfinds.len, s.packetBytes_length, if_pos hv, if_pos ⟨hk, hp⟩]

/-! ### The packet codec and its parts (R136) -/

/-- PKTDEC that completes on a packet with bytes has decoded its header, and a payload or none (R132). -/
theorem pktdec_completes {s t : State} (h : exec .pktdec s = .next t) (herr : t.err = 0#3) (hlen : s.len ≠ 0#6) :
    t = ((s.setHdr (hdecPort (s.pkByte 0)) (hdecChan (s.pkByte 0)) 1#1).setPv 0#1).setStatus 0#3 0#3 ∨
    t = (((s.setHdr (hdecPort (s.pkByte 0)) (hdecChan (s.pkByte 0)) 1#1).setCmdFields (pkBytes 1 14 s)
      s.byteOrder).setPv 1#1).setStatus 0#3 0#3 := by
  obtain ⟨h0, _⟩ | ⟨_, _, he⟩ | ⟨_, _, he⟩ := execPktdec_cases s
  · exact absurd ((len_toNat_eq_iff s (by decide)).1 h0) hlen
  · rw [exec, he] at h; cases h
    exact absurd herr (by simp)
  · rw [exec, he] at h
    obtain ⟨_, hr⟩ | ⟨_, _, _, hr⟩ | ⟨_, _, hr⟩ :=
      decodeRemainder_cases (hdecPort (s.pkByte 0)) (hdecChan (s.pkByte 0)) s <;> rw [hr] at h <;> cases h
    · exact .inl rfl
    · exact absurd herr (by simp)
    · exact .inr rfl

theorem plddec_payload {u v : State} (h : exec .plddec u = .next v) (hlen : u.len = 14#6) :
    v = ((u.setCmdFields (pkBytes 0 14 u) u.byteOrder).setPv 1#1).setStatus 0#3 0#3 := by
  obtain ⟨_, he⟩ | ⟨hne, _⟩ := execPlddec_cases u
  · rw [exec, he] at h; cases h; rfl
  · exact absurd ((len_toNat_eq_iff u (by decide)).2 hlen) hne

/-- Settles O30: HB and FV as in O36; the parts decode the same header byte and the same 14 bytes. -/
theorem packetCodecMatchesParts : Obligations.PacketCodecMatchesParts := by
  refine ⟨fun s t b v h => exec_fv (by simp) (exec_hb (by simp) (by simp) h b) v,
    fun s t b v h => exec_fv (by simp) (exec_hb (by simp) (by simp) h b) v, ?_, ?_⟩
  · intro s t u v h herr hlen hhb hu hverr
    obtain ⟨hport, hchan, hhv⟩ := hdec_fields hu hverr
    rw [hport, hchan, hhv, hhb]
    obtain rfl | rfl := pktdec_completes h herr hlen <;> exact ⟨rfl, rfl, rfl⟩
  · intro s t u v h herr hpv hlen hend hulen hpk hu
    have hbytes : pkBytes 0 14 u = pkBytes 1 14 s :=
      pkBytes_congr fun k hk => by rw [Nat.zero_add, hpk k hk]
    rw [plddec_payload hu hulen, hbytes, byteOrder_congr hend]
    obtain rfl | rfl := pktdec_completes h herr (by rw [hlen]; decide)
    · exact absurd hpv (by simp)
    · exact ⟨rfl, rfl, rfl, rfl⟩

end Sys2Proof.Machine

/-! PROOFS. The host's events in their order (20_memory.md R59, R60), and the assembler's statements as the accesses
they stand for (30_encoding.md R77 to R80). -/

namespace Sys2Proof.Machine

/-! ### Runs -/

theorem run_succ_fault {M : Host.Core} {s : M.State} {r : M.Fault} (n : Nat) (h : M.step s = .fault r) :
    M.run (n + 1) s = .fault r := by
  rw [Host.Core.run, h]

theorem run_succ_refused {M : Host.Core} {s : M.State} {r : M.Refusal} (n : Nat) (h : M.step s = .refused r) :
    M.run (n + 1) s = .refused r := by
  rw [Host.Core.run, h]

/-- A run goes on from where its first steps end. -/
theorem run_add {M : Host.Core} : ∀ (m n : Nat) {s t : M.State}, M.run m s = .next t → M.run (m + n) s = M.run n t
  | 0, n, s, t, h => by cases h; rw [Nat.zero_add]
  | m + 1, n, s, t, h => by
    cases hs : M.step s with
    | next u =>
      rw [run_succ m hs] at h
      rw [Nat.succ_add, run_succ _ hs, run_add m n h]
    | fault r => cases (run_succ_fault m hs).symm.trans h
    | refused r => cases (run_succ_refused m hs).symm.trans h

/-! ### Events and what is pending (R60) -/

theorem pending_of_hostEvent {e : HostEvent} {s t : State} (h : hostEvent e s = .next t) : t.pending = s.pending := by
  have hp : hostEvent e s = setPendingOf s.pending (hostEvent e s) := hostEvent_pending e s.pending s
  rw [h] at hp
  rw [Host.Outcome.next.inj hp]

theorem pending_of_applyInOrder : ∀ {es : List HostEvent} {s t : State}, applyInOrder es s = .next t →
    t.pending = s.pending
  | [], _, _, h => by cases h; rfl
  | e :: es, s, t, h => by
    rw [applyInOrder] at h
    cases he : hostEvent e s with
    | next u => rw [he] at h; exact (pending_of_applyInOrder h).trans (pending_of_hostEvent he)
    | fault r => rw [he] at h; cases h
    | refused r => rw [he] at h; cases h

/-- R60: a run as long as the first pending events has their effects, in their order. -/
theorem run_eq_applyInOrder : ∀ (es rest : List HostEvent) (s : State), s.pending = es ++ rest →
    core.run es.length s = applyInOrder es { s with pending := rest }
  | [], rest, s, h => by obtain rfl : s.pending = rest := h; rfl
  | e :: es, rest, s, h => by
    have hstep : core.step s = setPendingOf (es ++ rest) (hostEvent e { s with pending := rest }) := by
      rw [← hostEvent_pending]; exact step_cons h
    rw [applyInOrder]
    cases he : hostEvent e { s with pending := rest } with
    | next u =>
      rw [he] at hstep
      have hrest : u.pending = rest := pending_of_hostEvent he
      have hu : ({ u with pending := rest } : State) = u := by rw [← hrest]
      refine (run_succ (M := core) es.length hstep).trans ((run_eq_applyInOrder es rest _ rfl).trans ?_)
      exact congrArg (applyInOrder es) hu
    | fault r => rw [he] at hstep; exact run_succ_fault (M := core) es.length hstep
    | refused r => rw [he] at hstep; exact run_succ_refused (M := core) es.length hstep

/-- Settles O56: the step is the first event's effect, the run is `run_eq_applyInOrder`, and what follows is
`run_add`. -/
theorem eventsTakeEffectInOrder : Obligations.EventsTakeEffectInOrder := by
  refine ⟨fun e rest s h => ⟨step_cons h, fun t ht => ?_⟩, fun es rest s h => ⟨run_eq_applyInOrder es rest s h, ?_⟩⟩
  · rw [step_cons h] at ht
    exact pending_of_hostEvent ht
  · intro n t ht
    refine ⟨?_, run_add (M := core) es.length n ht⟩
    rw [run_eq_applyInOrder es rest s h] at ht
    exact pending_of_applyInOrder ht

/-! ### The assembler (R77 to R80) -/

theorem assemble_of_wf {x : Statement} (h : x.wf = true) : x.assemble = some (x.expand.map .access) := if_pos h

theorem assemble_of_not_wf {x : Statement} (h : ¬ x.wf = true) : x.assemble = none := if_neg h

/-- Settles O57: the one access is the CMD write of the command's word, which decodes to the command (O1). -/
theorem assembledCommandRuns : Obligations.AssembledCommandRuns := by
  intro i s rest
  refine ⟨fun hwf => ⟨_, assemble_of_wf (x := .command i) hwf, fun hp => ?_⟩,
    fun hwf => assemble_of_not_wf (x := .command i) (ne_true_of_eq_false hwf)⟩
  exact stepRunsDecodedCommand s rest (encode i) i hp (decode_encode hwf)

theorem setHdr_wf_iff (p c : Nat) : (Statement.setHdr p c).wf = true ↔ p < 16 ∧ c < 4 := by
  simp [Statement.wf]

/-- The word that SETHDR writes, by its fields (R80). -/
theorem setHdr_word {p c : Nat} (hp : p < 16) (hc : c < 4) :
    BitVec.ofNat 4 (BitVec.ofNat 32 (0x100 + (c <<< 4) + p)).toNat = BitVec.ofNat 4 p ∧
    BitVec.ofNat 2 ((BitVec.ofNat 32 (0x100 + (c <<< 4) + p)).toNat / 16) = BitVec.ofNat 2 c ∧
    BitVec.ofNat 1 ((BitVec.ofNat 32 (0x100 + (c <<< 4) + p)).toNat / 256) = 1#1 := by
  have hword : (BitVec.ofNat 32 (0x100 + (c <<< 4) + p)).toNat = 256 + 16 * c + p := by
    rw [BitVec.toNat_ofNat, Nat.shiftLeft_eq]; omega
  rw [hword]
  refine ⟨?_, ?_, ?_⟩ <;> rw [← BitVec.toNat_inj, BitVec.toNat_ofNat, BitVec.toNat_ofNat] <;> omega

/-- Settles O58: SETHDR is one write of HDR, which is O45's. -/
theorem sethdrConstructsHeader : Obligations.SethdrConstructsHeader := by
  intro s p c rest
  refine ⟨fun ⟨hp, hc⟩ => ⟨_, assemble_of_wf ((setHdr_wf_iff p c).2 ⟨hp, hc⟩), fun hpend => ?_⟩,
    fun hn => assemble_of_not_wf (mt (setHdr_wf_iff p c).1 hn), ?_⟩
  · obtain ⟨hport, hchan, hhv⟩ := setHdr_word hp hc
    rw [registerWritesItsFields s .hdr _ rest (by decide) hpend]
    simp only [hport, hchan, hhv]
  · by_cases hp : p < 16
    · rw [assemble_of_wf ((setHdr_wf_iff p 0).2 ⟨hp, by decide⟩)]
      exact assemble_of_wf (x := .setHdrPort p) (decide_eq_true hp)
    · rw [assemble_of_not_wf (mt (setHdr_wf_iff p 0).1 fun h => hp h.1)]
      exact assemble_of_not_wf (x := .setHdrPort p) (by simpa [Statement.wf] using hp)

theorem loadPk_wf_iff (bs : List Byte) : (Statement.loadPk bs).wf = true ↔ bs.length ≤ 32 := decide_eq_true_iff

/-- R80: the WR8s of LOADPK store the bytes one after another, and the write of LEN ends it. -/
theorem applyInOrder_loadBytes (n : Word) : ∀ (bs : List Byte) (i : Nat) (s : State), i + bs.length ≤ 32 →
    applyInOrder ((loadBytes i bs ++ [HostAccess.wr32 Reg.pklen.addr n]).map .access) s
      = .next { writePk i bs s with len := legalLen n, response := some .done }
  | [], i, s, _ => by
    rw [loadBytes, List.nil_append, List.map_singleton, applyInOrder, hostEvent, hostAccess, wr32_of_reg (by decide)]
    rfl
  | b :: bs, i, s, h => by
    rw [List.length_cons] at h
    have htarget : target (BitVec.ofNat 7 (Config.pkBase + i)) = .pk i := target_pkAddr (by omega)
    rw [loadBytes, List.cons_append, List.map_cons, applyInOrder, hostEvent, hostAccess, wr8_of_pk htarget]
    exact applyInOrder_loadBytes n bs (i + 1) _ (by omega)

theorem legalLen_ofNat {n : Nat} (h : n ≤ 32) : legalLen (BitVec.ofNat 32 n) = BitVec.ofNat 6 n := by
  rw [legalLen_eq, BitVec.toNat_ofNat]
  congr 1
  omega

/-- Settles O59: the run is the events in order (O56), and what they store is `writePk_pkByte`. -/
theorem loadpkLoadsBuffer : Obligations.LoadpkLoadsBuffer := by
  intro s bs rest ⟨hwf, _⟩
  refine ⟨fun hlen => ⟨_, assemble_of_wf ((loadPk_wf_iff bs).2 hlen), fun hp => ?_⟩,
    fun hlen => assemble_of_not_wf (x := .loadPk bs) (by rw [loadPk_wf_iff]; omega)⟩
  obtain ⟨inside, outside⟩ := writePk_pkByte (i := 0) (bs := bs) (s := { s with pending := rest })
    (by omega) hwf
  simp only [Nat.zero_add] at inside outside
  have hload := applyInOrder_loadBytes (BitVec.ofNat 32 bs.length) bs 0 { s with pending := rest } (by omega)
  rw [legalLen_ofNat hlen] at hload
  refine ⟨_, (run_eq_applyInOrder _ rest s hp).trans hload, rfl, inside,
    fun j hj => outside j (.inr hj)⟩

end Sys2Proof.Machine
